-- ==== Sys2Proof/Word.lean ====
section
/-! DEFINITION. The data word of the machine and the index of a register (R4: XLEN 8, MEM_SIZE 256, NREGS 8, SP_INDEX 7). -/

namespace Sys2Proof

/-- R4: every register, memory cell, operand byte and opcode byte is 8 bits wide, read as an unsigned integer (R6). -/
abbrev Byte := BitVec 8

/-- R11: the eight registers R0 to R7, by index. -/
abbrev Reg := Fin 8

/-- R12: R7 is the stack pointer. -/
abbrev spReg : Reg := 7

/-- R52: the operand byte that names a register; the valid ones are exactly `0b00000rrr`. -/
def Reg.byte (r : Reg) : Byte := BitVec.ofNat 8 r.val

/-- R4, R30: the number of memory cells. -/
abbrev memSize : Nat := 256

end Sys2Proof
end

