-- ==== Sys2Proof/Syntax.lean ====
section
/-! DEFINITION. The instruction set as syntax: the 13 rows of R54, the formats of R51, and an instruction as its
mnemonic with its operand bytes. An operand is kept as the whole byte it is in memory (R52, R53); WellFormed says which
register bytes are legal. -/

namespace Sys2Proof

/-- The 13 mnemonics of R54, in the source's order. The table is closed. -/
inductive Mnemonic where
  | ldi | prn | add | mul | push | pop | call | ret | cmp | jmp | jeq | jne | hlt
  deriving DecidableEq, Repr

/-- R51: the four formats. -/
inductive Format where
  | z   -- no operand
  | r   -- one register byte
  | rr  -- two register bytes
  | ri  -- a register byte, then an immediate byte
  deriving DecidableEq, Repr

/-- R54: the rows of the table, in order. -/
def Mnemonic.all : List Mnemonic :=
  [.ldi, .prn, .add, .mul, .push, .pop, .call, .ret, .cmp, .jmp, .jeq, .jne, .hlt]

/-- R54: the format column. -/
def Mnemonic.format : Mnemonic → Format
  | .ldi => .ri
  | .prn => .r
  | .add => .rr
  | .mul => .rr
  | .push => .r
  | .pop => .r
  | .call => .r
  | .ret => .z
  | .cmp => .rr
  | .jmp => .r
  | .jeq => .r
  | .jne => .r
  | .hlt => .z

/-- R51: how many operand bytes a format has. -/
def Format.operandCount : Format → Nat
  | .z => 0
  | .r => 1
  | .rr => 2
  | .ri => 2

/-- R54: the operand count `n`, a property of the row and not of any opcode bit (R50, R56). -/
def Mnemonic.operandCount (m : Mnemonic) : Nat := m.format.operandCount

/-- An instruction: one constructor per row of the opcode table, with its operand bytes in the order they stand in
memory (R51). -/
inductive Instr where
  | ldi (reg imm : Byte)      -- R90
  | prn (reg : Byte)          -- R91
  | add (regA regB : Byte)    -- R101
  | mul (regA regB : Byte)    -- R102
  | push (reg : Byte)         -- R112
  | pop (reg : Byte)          -- R113
  | call (reg : Byte)         -- R120
  | ret                       -- R121
  | cmp (regA regB : Byte)    -- R131
  | jmp (reg : Byte)          -- R132
  | jeq (reg : Byte)          -- R133
  | jne (reg : Byte)          -- R134
  | hlt                       -- R140
  deriving DecidableEq, Repr

/-- The row of R54 an instruction belongs to. -/
def Instr.mnemonic : Instr → Mnemonic
  | .ldi _ _ => .ldi
  | .prn _ => .prn
  | .add _ _ => .add
  | .mul _ _ => .mul
  | .push _ => .push
  | .pop _ => .pop
  | .call _ => .call
  | .ret => .ret
  | .cmp _ _ => .cmp
  | .jmp _ => .jmp
  | .jeq _ => .jeq
  | .jne _ => .jne
  | .hlt => .hlt

/-- R51: the operand bytes at A+1 and A+2. -/
def Instr.operandBytes : Instr → List Byte
  | .ldi reg imm => [reg, imm]
  | .prn reg => [reg]
  | .add regA regB => [regA, regB]
  | .mul regA regB => [regA, regB]
  | .push reg => [reg]
  | .pop reg => [reg]
  | .call reg => [reg]
  | .ret => []
  | .cmp regA regB => [regA, regB]
  | .jmp reg => [reg]
  | .jeq reg => [reg]
  | .jne reg => [reg]
  | .hlt => []

/-- R50: an instruction is 1, 2 or 3 bytes long. -/
def Instr.length (i : Instr) : Nat := 1 + i.mnemonic.operandCount

end Sys2Proof
end

