-- ==== Sys2Proof/Config.lean ====
section
/-! DEFINITION. The parameters of R5: STACK_TOP, PROG_LEN and OPC. They are inputs that stay constant for a whole run
(R24). The rules are written in their names, so the model carries them as data and its claims hold for every admissible
value. Their defaults stand in Decode.lean (OPC) and Machine/Defaults.lean (STACK_TOP). This hardware has no free value:
no rule leaves a result undefined (R81). -/

namespace Sys2Proof

/-- R5, R55: `OPC`, the opcode byte of each mnemonic, as plain data. -/
structure OpcodeMap where
  ldi : Byte
  prn : Byte
  add : Byte
  mul : Byte
  push : Byte
  pop : Byte
  call : Byte
  ret : Byte
  cmp : Byte
  jmp : Byte
  jeq : Byte
  jne : Byte
  hlt : Byte
  deriving DecidableEq, Repr

/-- `OPC[m]`. -/
def OpcodeMap.byte (o : OpcodeMap) : Mnemonic → Byte
  | .ldi => o.ldi
  | .prn => o.prn
  | .add => o.add
  | .mul => o.mul
  | .push => o.push
  | .pop => o.pop
  | .call => o.call
  | .ret => o.ret
  | .cmp => o.cmp
  | .jmp => o.jmp
  | .jeq => o.jeq
  | .jne => o.jne
  | .hlt => o.hlt

/-- R55: the only property of `OPC` the rules rely on is that two mnemonics never share a byte. -/
abbrev OpcodeMap.Injective (o : OpcodeMap) : Prop :=
  ∀ m ∈ Mnemonic.all, ∀ m' ∈ Mnemonic.all, o.byte m = o.byte m' → m = m'

/-- R5: the configuration of one run. -/
structure Config where
  /-- `STACK_TOP`: SP after reset, and the empty-stack position pop compares against. -/
  stackTop : Byte
  /-- `PROG_LEN`: how many program bytes the load placed at address 0 upward. -/
  progLen : Nat
  /-- `OPC`: the opcode byte of each mnemonic. -/
  opc : OpcodeMap
  deriving DecidableEq, Repr

/-- R5: the constraints on the parameters (`STACK_TOP` is a byte by its type). -/
abbrev Config.Admissible (c : Config) : Prop := c.progLen ≤ memSize ∧ c.opc.Injective

end Sys2Proof
end

