-- ==== Sys2Proof/WellFormed.lean ====
section
/-! DEFINITION. Which instructions are legal: every byte that names a register is in [0,7] (R52, R59, R74). The immediate
of LDI is never illegal (R53). -/

namespace Sys2Proof

/-- R52: a register operand byte is legal exactly when it is in [0,7]. -/
def validReg (b : Byte) : Bool := b.toNat ≤ 7

/-- R74: operand validation, for every register operand of the format, also of a jump that is not taken. -/
def Instr.wellFormed : Instr → Bool
  | .ldi reg _ => validReg reg
  | .prn reg => validReg reg
  | .add regA regB => validReg regA && validReg regB
  | .mul regA regB => validReg regA && validReg regB
  | .push reg => validReg reg
  | .pop reg => validReg reg
  | .call reg => validReg reg
  | .ret => true
  | .cmp regA regB => validReg regA && validReg regB
  | .jmp reg => validReg reg
  | .jeq reg => validReg reg
  | .jne reg => validReg reg
  | .hlt => true

end Sys2Proof
end

