-- ==== Sys2Proof/Decode.lean ====
section
/-! DEFINITION. From bytes to an instruction or a rejection by name, and back. Decoding is an exact match of the whole
opcode byte against OPC (R56). Steps 2, 3 and 3b of the cycle (R72, R73, R74) are its three checks, in that order. -/

namespace Sys2Proof

/-- R55, decision D1: the default `OPC`, PRESUMED (the spec takes it from general knowledge of the LS-8 teaching
architecture, log entry 2). The same bytes stand in spec/opcode_table.json. -/
def OpcodeMap.default : OpcodeMap where
  ldi := 0b10000010
  prn := 0b01000111
  add := 0b10100000
  mul := 0b10100010
  push := 0b01000101
  pop := 0b01000110
  call := 0b01010000
  ret := 0b00010001
  cmp := 0b10100111
  jmp := 0b01010100
  jeq := 0b01010101
  jne := 0b01010110
  hlt := 0b00000001

/-- Why a byte sequence is no instruction. -/
inductive DecodeError where
  /-- There is no byte at the first address (step 1, R71). -/
  | noOpcode
  /-- The first byte is none of the 13 opcodes (step 2, R72, R58). -/
  | unknownOpcode
  /-- An operand byte lies past the last address (step 3, R73). -/
  | missingOperand
  /-- A byte that names a register is above 7 (step 3b, R74). -/
  | invalidRegister
  deriving DecidableEq, Repr

/-- R56: look the opcode byte up in the table; no bit of it is a field. -/
def OpcodeMap.lookup (o : OpcodeMap) (op : Byte) : Option Mnemonic :=
  Mnemonic.all.find? fun m => o.byte m == op

/-- R73: the operand bytes `b1`, `b2` (an absent one is given as 0 and used by no format), and the bytes after them. -/
def takeOperands : Format → List Byte → Option (Byte × Byte × List Byte)
  | .z, rest => some (0, 0, rest)
  | .r, b1 :: rest => some (b1, 0, rest)
  | .rr, b1 :: b2 :: rest => some (b1, b2, rest)
  | .ri, b1 :: b2 :: rest => some (b1, b2, rest)
  | .r, [] => none
  | .rr, [] => none
  | .rr, [_] => none
  | .ri, [] => none
  | .ri, [_] => none

/-- R51: the instruction of a row with the operand bytes at A+1 and A+2. -/
def assemble (m : Mnemonic) (b1 b2 : Byte) : Instr :=
  match m with
  | .ldi => .ldi b1 b2
  | .prn => .prn b1
  | .add => .add b1 b2
  | .mul => .mul b1 b2
  | .push => .push b1
  | .pop => .pop b1
  | .call => .call b1
  | .ret => .ret
  | .cmp => .cmp b1 b2
  | .jmp => .jmp b1
  | .jeq => .jeq b1
  | .jne => .jne b1
  | .hlt => .hlt

/-- The decoder: the instruction at the head of `bytes` and the bytes after it, or the first check that fails (R83, checks
1 to 4). -/
def decode (o : OpcodeMap) (bytes : List Byte) : Except DecodeError (Instr × List Byte) :=
  match bytes with
  | [] => .error .noOpcode
  | op :: tail =>
    match o.lookup op with
    | none => .error .unknownOpcode
    | some m =>
      match takeOperands m.format tail with
      | none => .error .missingOperand
      | some (b1, b2, rest) =>
        if (assemble m b1 b2).wellFormed then .ok (assemble m b1 b2, rest) else .error .invalidRegister

/-- R50, R51, R55: the bytes of an instruction, the opcode byte at the lowest address. -/
def encode (o : OpcodeMap) (i : Instr) : List Byte := o.byte i.mnemonic :: i.operandBytes

/-- The longest instruction, in bytes (R50). -/
abbrev maxLength : Nat := 3

/-- The bytes of an instruction whose bits are `w`, numbered as spec/opcode_table.json numbers them: the byte at the
lowest address is bits 7..0. Bits from `nbits` on are 0. -/
def wordBytes (nbits w : Nat) : List Byte :=
  (List.range maxLength).map fun k => BitVec.ofNat 8 ((w % 2 ^ nbits) / 256 ^ k)

/-- What the decoder reads from a table word, under the default `OPC`. -/
def decodeTableWord (nbits w : Nat) : Option Instr :=
  match decode OpcodeMap.default (wordBytes nbits w) with
  | .ok (i, _) => some i
  | .error _ => none

end Sys2Proof
end

