-- ==== Sys2Proof/Machine/Defaults.lean ====
section
/-! DEFINITION. The default parameters of R5. -/

namespace Sys2Proof

/-- R5, decision D2: the default `STACK_TOP`, PRESUMED (the spec takes 0xF4 from general knowledge of the LS-8 teaching
architecture, log entry 3). -/
def defaultStackTop : Byte := 0xF4

/-- The default configuration before any load: `PROG_LEN` is 0, the length of the empty program (DESIGN CHOICE, log
entry 4: R5 gives no default, the load sets it). -/
def Config.default : Config where
  stackTop := defaultStackTop
  progLen := 0
  opc := OpcodeMap.default

end Sys2Proof
end

