-- ==== Sys2Proof/Machine/State.lean ====
section
/-! DEFINITION. The state of the machine, exactly the six items of R10 and the configuration inputs of R24, as plain data;
the reasons a step stops; and the state after reset (R26, R180). -/

namespace Sys2Proof.Machine

/-- R151: the six runtime fault kinds that `run = Faulted(k)` can hold. Taking one is a NEXT state (R77, R160). -/
inductive FaultKind where
  /-- R152: a computed address is outside [0,255]. -/
  | addressOutOfRange
  /-- R153: a register operand byte is outside [0,7]. -/
  | invalidRegister
  /-- R154: the ALU is asked for another operation than Add or Multiply; no instruction does so (R104). -/
  | unsupportedALUOperation
  /-- R155: the byte at `pc` is none of the 13 opcodes. -/
  | unknownOpcode
  /-- R156: the new stack address is outside the stack region. -/
  | stackOverflow
  /-- R157: SP equals `STACK_TOP` at a pop. -/
  | stackUnderflow
  deriving DecidableEq, Repr

/-- R22: the run state. -/
inductive RunState where
  | running
  | halted
  | faulted (k : FaultKind)
  deriving DecidableEq, Repr

/-- Why `step` gives no next state. The machine has no step from a terminal run state (R22, R70, decision D13), so these
are stuck states; no instruction raises one. -/
inductive Fault where
  /-- Raised by `step` when `run = Halted`. Safe: the spec says there is no further cycle (R70). -/
  | noStepHalted
  /-- Raised by `step` when `run = Faulted(k)`. Safe: the spec says there is no further cycle (R70). -/
  | noStepFaulted (k : FaultKind)
  deriving DecidableEq, Repr

/-- Why an instruction is refused. Every instruction of the table has its meaning, so nothing raises it. -/
inductive Refusal where
  /-- Would be raised by an arm of `exec` whose instruction has no meaning yet; there is none. Safe: it only stops. -/
  | notModelled (mnemonic : String)
  deriving DecidableEq, Repr

/-- R18: the flag register's three bits. -/
structure Flags where
  /-- Less -/
  l : Bool
  /-- Greater -/
  g : Bool
  /-- Equal -/
  e : Bool
  deriving DecidableEq, Repr

/-- R21: memory as the list of its non-zero cells, by rising address. A cell that is not listed reads 0 (R33). The
canonical form is `Memory.wf` (Machine/Ops.lean). -/
abbrev Memory := List Host.Cell

/-- R10: the six items of architectural state, and the configuration inputs of R24 (log entry 1). -/
structure State where
  /-- `Mem`, R21 -/
  mem : Memory
  /-- `x[0]` to `x[7]`, R11 -/
  regs : Vector Byte 8
  /-- `pc`, an integer in [0,256] (R15, R17) -/
  pc : Nat
  /-- `FL`, R18 -/
  flags : Flags
  /-- `run`, R22 -/
  run : RunState
  /-- `out`, oldest value first, R23 -/
  out : List Byte
  /-- `STACK_TOP`, `PROG_LEN`, `OPC`: constant for a run, no state of the hardware (R24) -/
  config : Config
  deriving DecidableEq, Repr

/-- R26, R180: reset under the parameters `STACK_TOP` and `OPC`. Nothing is loaded yet, so `PROG_LEN` is 0 until
`State.load` sets it (log entry 4). `run` is `Running`: the core counts as released (R26). -/
def State.resetWith (stackTop : Byte) (opc : OpcodeMap) : State where
  mem := []
  regs := #v[0, 0, 0, 0, 0, 0, 0, stackTop]
  pc := 0
  flags := { l := false, g := false, e := false }
  run := .running
  out := []
  config := { stackTop := stackTop, progLen := 0, opc := opc }

/-- The machine right after reset, under the default parameters. -/
def State.reset : State := State.resetWith Config.default.stackTop Config.default.opc

end Sys2Proof.Machine
end

