-- ==== Sys2Proof/Machine/Ops.lean ====
section
/-! DEFINITION. The named operations every meaning is built from: the memory primitives (R31, R32), the register file, the
program counter, the fault and halt transitions (R77, R78), push and pop (R110, R111), instruction fetch (R71, R73), and
the load interface (R182). -/

namespace Sys2Proof.Machine

/-! ### Memory -/

/-- `Mem[a]`: the stored value, 0 if never written (R33). -/
def Memory.read : Memory → Nat → Byte
  | [], _ => 0
  | (k, v) :: m, a => if k = a then v else Memory.read m a

/-- Put a cell at its place in a list that rises by address. -/
def Memory.insertCell (a : Nat) (v : Byte) : Memory → Memory
  | [] => [(a, v)]
  | (k, w) :: m => if a < k then (a, v) :: (k, w) :: m else (k, w) :: Memory.insertCell a v m

/-- `Mem[a] <- v`: the cell's old entry goes; the new one comes, unless it is what an unlisted address reads as. -/
def Memory.write (m : Memory) (a : Nat) (v : Byte) : Memory :=
  if v = 0 then m.filter (fun c => c.1 ≠ a) else Memory.insertCell a v (m.filter (fun c => c.1 ≠ a))

/-- The canonical form: addresses strictly rising, every address a cell of the machine (R30), and no entry equal to what
an unlisted address reads as. -/
abbrev Memory.wf (m : Memory) : Prop :=
  m.Pairwise (fun c d => c.1 < d.1) ∧ ∀ c ∈ m, c.1 < memSize ∧ c.2 ≠ 0

/-- R31: `MemRead(a, 1)`, for an integer address. -/
def memRead (a : Int) (s : State) : Except FaultKind Byte :=
  if a < 0 ∨ a > 255 then .error .addressOutOfRange else .ok (s.mem.read a.toNat)

/-- R32: `MemWrite(a, 1, v)`; the value is a byte by its type (decision D17). -/
def memWrite (a : Int) (v : Byte) (s : State) : Except FaultKind State :=
  if a < 0 ∨ a > 255 then .error .addressOutOfRange else .ok { s with mem := s.mem.write a.toNat v }

/-! ### Registers and the program counter -/

/-- `x[r]`. -/
def State.reg (s : State) (r : Reg) : Byte := s.regs[r.val]

/-- `x[r] <- v`. No register is hard-wired (R11). -/
def State.setReg (s : State) (r : Reg) (v : Byte) : State := { s with regs := s.regs.set r.val v }

/-- R12: SP is R7. -/
def State.sp (s : State) : Byte := s.reg spReg

/-- R76: the advance by `1 + n`, without wrap-around (R17). -/
def State.advance (s : State) (n : Nat) : State := { s with pc := s.pc + 1 + n }

/-- An instruction that sets `pc` itself: the target is a byte value (R34). -/
def State.jump (s : State) (target : Byte) : State := { s with pc := target.toNat }

/-- R23: the output port takes one value; it never waits and never fails. -/
def State.emit (s : State) (v : Byte) : State := { s with out := s.out ++ [v] }

/-! ### Leaving the loop -/

/-- R77, R160: taking a fault. `run` becomes `Faulted(k)`; nothing is saved, control goes nowhere, and everything else
keeps the value it had when the cycle began. There is no return from it (R161): the one way on is `boot`. -/
def State.raise (s : State) (k : FaultKind) : State := { s with run := .faulted k }

/-- R78: the halt transition. -/
def State.halt (s : State) : State := { s with run := .halted }

/-- The end of an instruction's execute step: its result is the next state; a fault raised on the way is taken from the
state the instruction STARTED in, so a faulting instruction has no partial effect (R77). -/
def State.commit (s : State) (result : Except FaultKind State) : Host.Outcome State Fault Refusal :=
  match result with
  | .ok t => .next t
  | .error k => .next (s.raise k)

/-! ### The stack -/

/-- R110: the address a push writes, SP - 1, over the integers. -/
def pushAddress (s : State) : Int := (s.sp.toNat : Int) - 1

/-- R40: the stack region, `PROG_LEN <= a <= STACK_TOP - 1`. -/
def State.inStackRegion (s : State) (a : Int) : Bool :=
  decide ((s.config.progLen : Int) ≤ a) && decide (a ≤ (s.config.stackTop.toNat : Int) - 1)

/-- R110: `push(v)`. -/
def push (v : Byte) (s : State) : Except FaultKind State :=
  if pushAddress s < s.config.progLen ∨ pushAddress s > (s.config.stackTop.toNat : Int) - 1 then
    .error .stackOverflow
  else
    memWrite (pushAddress s) v (s.setReg spReg (BitVec.ofInt 8 (pushAddress s)))

/-- R111: `pop()`: the value, and the state with the cell cleared and SP one higher. -/
def pop (s : State) : Except FaultKind (Byte × State) :=
  if s.sp = s.config.stackTop then .error .stackUnderflow
  else if s.sp.toNat = 255 then .error .addressOutOfRange
  else do
    let v ← memRead s.sp.toNat s
    let t ← memWrite s.sp.toNat 0 s
    return (v, t.setReg spReg (BitVec.ofNat 8 (s.sp.toNat + 1)))

/-- R120: CALL's return address `pc + 2`, which must fit a cell. -/
def returnAddress (s : State) : Except FaultKind Byte :=
  if s.pc + 2 > 255 then .error .addressOutOfRange else .ok (BitVec.ofNat 8 (s.pc + 2))

/-! ### Fetch -/

/-- R71, R73: the bytes at `pc`, `pc + 1`, `pc + 2` that exist. A byte past address 255 is missing, and what needs it
raises `AddressOutOfRange`. -/
def fetchWindow (s : State) : List Byte :=
  (List.range maxLength).filterMap fun k => (memRead (s.pc + k : Nat) s).toOption

/-- The fault each rejection of the decoder raises (R71 to R74). -/
def decodeFault : DecodeError → FaultKind
  | .noOpcode => .addressOutOfRange
  | .unknownOpcode => .unknownOpcode
  | .missingOperand => .addressOutOfRange
  | .invalidRegister => .invalidRegister

/-- Steps 1 to 3b of the cycle: the instruction at `pc`, or the fault the cycle ends in. -/
def fetchInstr (s : State) : Except FaultKind Instr :=
  match decode s.config.opc (fetchWindow s) with
  | .ok (i, _) => .ok i
  | .error e => .error (decodeFault e)

/-! ### The load interface -/

/-- Byte `k` of the sequence goes to address `a + k`; an address that does not exist takes nothing. -/
def storeBytes (m : Memory) (a : Nat) : List Byte → Memory
  | [] => m
  | b :: bs => storeBytes (if a < memSize then m.write a b else m) (a + 1) bs

/-- R182: the load. More than 256 bytes cannot be loaded: a setup-time failure, the core is not started. -/
def State.load (s : State) (bytes : List Byte) : Option State :=
  if bytes.length ≤ memSize then
    some { s with mem := storeBytes s.mem 0 bytes, config := { s.config with progLen := bytes.length } }
  else none

/-- R181: reset, then load; the core then performs cycles from `pc = 0`. -/
def boot (stackTop : Byte) (opc : OpcodeMap) (bytes : List Byte) : Option State :=
  (State.resetWith stackTop opc).load bytes

end Sys2Proof.Machine
end

