-- ==== Sys2Proof/Machine/Operands.lean ====
section
/-! DEFINITION. The two operand forms of the hardware: a register named by a whole byte (R52) and an immediate byte (R53).
No instruction has another; the stack is reached through SP alone (R46). -/

namespace Sys2Proof.Machine

/-- R52, R11, R153: the register a byte names, or `InvalidRegister`. The decoder has already validated the byte (R74); the
check stands here too because the register file's accessors demand an index in [0,7] (R11), so `exec` is total on
ill-formed instructions without inventing a register (log entry 18). -/
def regOperand (b : Byte) : Except FaultKind Reg :=
  if h : b.toNat < 8 then .ok ⟨b.toNat, h⟩ else .error .invalidRegister

/-- R53: the immediate is used as it stands: not extended, not scaled, not validated. -/
def immOperand (b : Byte) : Byte := b

end Sys2Proof.Machine
end

