-- ==== Sys2Proof/Machine/Alu.lean ====
section
/-! DEFINITION. The ALU, ADD and MUL (42_alu.md). -/

namespace Sys2Proof.Machine

/-- R100: the operations the ALU supports, and any other request it may be handed (R104), by a number of no meaning. -/
inductive AluOp where
  | add
  | multiply
  | other (request : Nat)
  deriving DecidableEq, Repr

/-- R100, R104: a pure function of two register values. Sum and product are taken over the integers and reduced modulo
256; there is no carry, no flag and no trap. -/
def alu (op : AluOp) (a b : Byte) : Except FaultKind Byte :=
  match op with
  | .add => .ok (BitVec.ofNat 8 ((a.toNat + b.toNat) % 256))
  | .multiply => .ok (BitVec.ofNat 8 ((a.toNat * b.toNat) % 256))
  | .other _ => .error .unsupportedALUOperation

/-- The common shape of ADD and MUL: both sources are read before regA is written (R82). -/
def aluInstr (op : AluOp) (regA regB : Byte) (s : State) : Except FaultKind State := do
  let ra ← regOperand regA
  let rb ← regOperand regB
  let v ← alu op (s.reg ra) (s.reg rb)
  return (s.setReg ra v).advance 2

/-- R101. ADD regA, regB. -/
def execAdd (regA regB : Byte) (s : State) : Host.Outcome State Fault Refusal :=
  s.commit (aluInstr .add regA regB s)

/-- R102. MUL regA, regB. -/
def execMul (regA regB : Byte) (s : State) : Host.Outcome State Fault Refusal :=
  s.commit (aluInstr .multiply regA regB s)

end Sys2Proof.Machine
end

