-- ==== Sys2Proof/Machine/Flags.lean ====
section
/-! DEFINITION. The flag register: the compare function (R130), its one reader's view (R19), and the byte it is presented
as (R20). The ALU sets no flag (R100). -/

namespace Sys2Proof.Machine

/-- R130: unsigned comparison; all three bits are written on every call. -/
def Flags.compare (a b : Byte) : Flags where
  l := decide (a.toNat < b.toNat)
  g := decide (a.toNat > b.toNat)
  e := decide (a.toNat = b.toNat)

/-- The flags by name (R18). -/
inductive FlagName where
  | less | greater | equal
  deriving DecidableEq, Repr

/-- R130: `is_set(flag)`. -/
def Flags.isSet (f : Flags) : FlagName → Bool
  | .less => f.l
  | .greater => f.g
  | .equal => f.e

/-- R18: at most one flag is 1. -/
abbrev Flags.AtMostOne (f : Flags) : Prop := f.l.toNat + f.g.toNat + f.e.toNat ≤ 1

/-- R18, R130: exactly one flag is 1, as after any CMP. -/
abbrev Flags.ExactlyOne (f : Flags) : Prop := f.l.toNat + f.g.toNat + f.e.toNat = 1

/-- R20, decision D5: `FL` as a byte is `0b00000LGE`. No instruction can observe the positions (log entry 13). -/
def Flags.toByte (f : Flags) : Byte := BitVec.ofNat 8 (4 * f.l.toNat + 2 * f.g.toNat + f.e.toNat)

end Sys2Proof.Machine
end

