-- ==== Sys2Proof/Machine/CompareJump.lean ====
section
/-! DEFINITION. CMP, JMP, JEQ and JNE (45_compare_and_jump.md). -/

namespace Sys2Proof.Machine

/-- R131. CMP regA, regB: the only writer of the flags (R19). -/
def execCmp (regA regB : Byte) (s : State) : Host.Outcome State Fault Refusal :=
  s.commit do
    let ra ← regOperand regA
    let rb ← regOperand regB
    return { s with flags := Flags.compare (s.reg ra) (s.reg rb) }.advance 2

/-- R132. JMP reg: the target is absolute and any byte value. -/
def execJmp (reg : Byte) (s : State) : Host.Outcome State Fault Refusal :=
  s.commit do
    let r ← regOperand reg
    return s.jump (s.reg r)

/-- R133. JEQ reg: taken when Equal is set; the register byte is validated either way (R74). -/
def execJeq (reg : Byte) (s : State) : Host.Outcome State Fault Refusal :=
  s.commit do
    let r ← regOperand reg
    return if s.flags.isSet .equal then s.jump (s.reg r) else s.advance 1

/-- R134. JNE reg: taken when Equal is clear; the register byte is validated either way (R74). -/
def execJne (reg : Byte) (s : State) : Host.Outcome State Fault Refusal :=
  s.commit do
    let r ← regOperand reg
    return if s.flags.isSet .equal then s.advance 1 else s.jump (s.reg r)

end Sys2Proof.Machine
end

