-- ==== Sys2Proof/Machine/Halt.lean ====
section
/-! DEFINITION. HLT (46_halt.md). -/

namespace Sys2Proof.Machine

/-- R140. HLT: `run <- Halted`; `pc` keeps addressing the HLT byte (decision D12, log entry 11). -/
def execHlt (s : State) : Host.Outcome State Fault Refusal :=
  s.commit (.ok s.halt)

end Sys2Proof.Machine
end

