-- ==== Sys2Proof/Machine/LoadPrint.lean ====
section
/-! DEFINITION. LDI and PRN (41_load_immediate_and_print.md). -/

namespace Sys2Proof.Machine

/-- R90. LDI reg, imm: `x[reg] <- imm`. -/
def execLdi (reg imm : Byte) (s : State) : Host.Outcome State Fault Refusal :=
  s.commit do
    let r ← regOperand reg
    return (s.setReg r (immOperand imm)).advance 2

/-- R91. PRN reg: one value, the register's, goes to the output port. -/
def execPrn (reg : Byte) (s : State) : Host.Outcome State Fault Refusal :=
  s.commit do
    let r ← regOperand reg
    return (s.emit (s.reg r)).advance 1

end Sys2Proof.Machine
end

