-- ==== Sys2Proof/Machine/Stack.lean ====
section
/-! DEFINITION. PUSH and POP (43_stack.md). -/

namespace Sys2Proof.Machine

/-- R112. PUSH reg: the register is read before SP changes (R82), so PUSH R7 pushes the old SP. -/
def execPush (reg : Byte) (s : State) : Host.Outcome State Fault Refusal :=
  s.commit do
    let r ← regOperand reg
    let t ← push (s.reg r) s
    return t.advance 1

/-- R113. POP reg: the register is written after pop has raised SP, so POP R7 leaves the popped value in R7. -/
def execPop (reg : Byte) (s : State) : Host.Outcome State Fault Refusal :=
  s.commit do
    let r ← regOperand reg
    let (v, t) ← pop s
    return (t.setReg r v).advance 1

end Sys2Proof.Machine
end

