-- ==== Sys2Proof/Machine/Subroutine.lean ====
section
/-! DEFINITION. CALL and RET (44_subroutine.md). -/

namespace Sys2Proof.Machine

/-- R120. CALL reg: the target is read before SP changes (R82), so CALL R7 jumps to the old SP. The return address is
checked before the push (R83, checks 5a and 5b). -/
def execCall (reg : Byte) (s : State) : Host.Outcome State Fault Refusal :=
  s.commit do
    let r ← regOperand reg
    let ret ← returnAddress s
    let t ← push ret s
    return t.jump (s.reg r)

/-- R121. RET: `pc` is the popped byte. -/
def execRet (s : State) : Host.Outcome State Fault Refusal :=
  s.commit do
    let (v, t) ← pop s
    return t.jump v

end Sys2Proof.Machine
end

