-- ==== Sys2Proof/Machine/Dispatch.lean ====
section
/-! DEFINITION. R75: one arm per instruction. The execute step of one instruction whose opcode byte is at `pc`. It is
entered after steps 1 to 3b, and only while `run = Running`: `step` sees to both. -/

namespace Sys2Proof.Machine

def exec (i : Instr) (s : State) : Host.Outcome State Fault Refusal :=
  match i with
  | .ldi reg imm => Sys2Proof.Machine.execLdi reg imm s
  | .prn reg => Sys2Proof.Machine.execPrn reg s
  | .add regA regB => Sys2Proof.Machine.execAdd regA regB s
  | .mul regA regB => Sys2Proof.Machine.execMul regA regB s
  | .push reg => Sys2Proof.Machine.execPush reg s
  | .pop reg => Sys2Proof.Machine.execPop reg s
  | .call reg => Sys2Proof.Machine.execCall reg s
  | .ret => Sys2Proof.Machine.execRet s
  | .cmp regA regB => Sys2Proof.Machine.execCmp regA regB s
  | .jmp reg => Sys2Proof.Machine.execJmp reg s
  | .jeq reg => Sys2Proof.Machine.execJeq reg s
  | .jne reg => Sys2Proof.Machine.execJne reg s
  | .hlt => Sys2Proof.Machine.execHlt s

end Sys2Proof.Machine
end

