-- ==== Sys2Proof/Machine/Cycle.lean ====
section
/-! DEFINITION. One cycle of a running machine (R70 to R77), and placing an instruction where the next cycle fetches it. -/

namespace Sys2Proof.Machine

/-- R70: fetch, decode and validate (steps 1 to 3b), then execute; a fault on the way ends the cycle (R77). -/
def cycle (s : State) : Host.Outcome State Fault Refusal :=
  match fetchInstr s with
  | .ok i => exec i s
  | .error k => .next (s.raise k)

/-- The bytes placed at `pc` of a machine that runs. -/
def placeAtPc (bytes : List Byte) (s : State) : State :=
  { s with mem := storeBytes s.mem s.pc bytes, run := .running }

end Sys2Proof.Machine
end

