-- ==== Sys2Proof/Machine/Step.lean ====
section
/-! DEFINITION. The step of the machine: a cycle while `run = Running`, and no step from a terminal run state (R70). -/

namespace Sys2Proof.Machine

/-- R70, R22: `Halted` and `Faulted(k)` are terminal; the machine then has no next state. -/
def step (s : State) : Host.Outcome State Fault Refusal :=
  match s.run with
  | .running => cycle s
  | .halted => .fault .noStepHalted
  | .faulted k => .fault (.noStepFaulted k)

/-- `s` with an instruction of the opcode table stored at its `pc`, and `run = Running`, so that the next step fetches and
runs it (log entry 20 says how a program comes to run from reset). -/
def State.withFetchWord (s : State) (nbits w : Nat) : State := placeAtPc (wordBytes nbits w) s

end Sys2Proof.Machine
end

