-- ==== Sys2Proof/Machine/Loader.lean ====
section
/-! DEFINITION. How a program reaches the machine from outside: the Loader's text format (R60), the setup-time errors
(R158, R182) and a launch up to the first cycle (R181). The spec puts the Loader and the Driver outside the hardware (R3)
and records them because programs are written that way; no step depends on this file. -/

namespace Sys2Proof.Machine

/-- R158: why the core is not started. None of these is ever in `run`. -/
inductive SetupError where
  /-- No file path on the command line. -/
  | missingProgramArgument
  /-- The file cannot be read. -/
  | fileReadError
  /-- A retained token is not 8 characters of `0` and `1`. -/
  | malformedInstructionLine
  /-- R182: more than 256 bytes; the source gives it no name (decision D16, log entry 25). -/
  | programTooLong
  deriving DecidableEq, Repr

/-- The lines of a text, without their line feeds. -/
def splitLines : List Char → List (List Char)
  | [] => [[]]
  | c :: cs =>
    if c = '\n' then [] :: splitLines cs
    else
      match splitLines cs with
      | [] => [[c]]
      | l :: ls => (c :: l) :: ls

/-- A line without white space at either end. -/
def trimLine (l : List Char) : List Char :=
  ((l.dropWhile Char.isWhitespace).reverse.dropWhile Char.isWhitespace).reverse

/-- R60: what a line holds once everything from the first `#` on is discarded and the rest is trimmed. It is empty exactly
for the lines R60 ignores. -/
def lineToken (l : List Char) : List Char := trimLine (l.takeWhile (· ≠ '#'))

/-- R60: the byte a token of exactly 8 binary digits stands for, the most significant digit first. -/
def tokenByte (t : List Char) : Option Byte :=
  if t.length = 8 ∧ t.all (fun c => c = '0' || c = '1') then
    some (BitVec.ofNat 8 (t.foldl (fun n c => 2 * n + if c = '1' then 1 else 0) 0))
  else none

/-- R60: the bytes of the retained lines, in file order. -/
def linesBytes : List (List Char) → Except SetupError (List Byte)
  | [] => .ok []
  | l :: ls =>
    if lineToken l = [] then linesBytes ls
    else
      match tokenByte (lineToken l) with
      | none => .error .malformedInstructionLine
      | some b => do return b :: (← linesBytes ls)

/-- R60: the Loader, from a text to the bytes it hands the core. -/
def parseProgram (text : List Char) : Except SetupError (List Byte) := linesBytes (splitLines text)

/-- What the Driver got from its command line (R158). -/
inductive ProgramFile where
  | noPath
  | unreadable
  | text (contents : List Char)
  deriving DecidableEq, Repr

/-- R181, R158, R182: from a command line to the machine as its first cycle finds it, or the setup-time error that keeps
the core from starting. -/
def launch (stackTop : Byte) (opc : OpcodeMap) (file : ProgramFile) : Except SetupError State :=
  match file with
  | .noPath => .error .missingProgramArgument
  | .unreadable => .error .fileReadError
  | .text contents =>
    match parseProgram contents with
    | .error e => .error e
    | .ok bytes =>
      match boot stackTop opc bytes with
      | none => .error .programTooLong
      | some s => .ok s

/-- R60, the other way: a byte as its 8 binary digits. -/
def byteToken (b : Byte) : List Char := (List.range 8).map fun k => if b.getLsbD (7 - k) then '1' else '0'

/-- R60, the other way: one line per byte, each with a trailing comment. -/
def programText : List (Byte × List Char) → List Char
  | [] => []
  | (b, comment) :: ls => byteToken b ++ ' ' :: '#' :: comment ++ '\n' :: programText ls

end Sys2Proof.Machine
end

