-- ==== Sys2Proof/Machine/Status.lean ====
section
/-! DEFINITION. What the world outside the core is told (R2, R169): the run-state status port and the output port. No
instruction reads any of it (R22, R23). -/

namespace Sys2Proof.Machine

/-- R151, decision D14: the code of a fault kind on the status port; 0 is no fault. -/
def FaultKind.code : FaultKind → Nat
  | .addressOutOfRange => 1
  | .invalidRegister => 2
  | .unsupportedALUOperation => 3
  | .unknownOpcode => 4
  | .stackOverflow => 5
  | .stackUnderflow => 6

/-- R151: the fault code the status port shows. -/
def RunState.faultCode : RunState → Nat
  | .running => 0
  | .halted => 0
  | .faulted k => k.code

/-- R169: the exit status the Driver derives from a terminal run state: zero on `Halted`, non-zero with a diagnostic of its
own on each fault. -/
inductive ExitStatus where
  | zero
  | nonZero (diagnostic : FaultKind)
  deriving DecidableEq, Repr

/-- R169: a machine that still runs reports nothing. -/
def RunState.exitStatus : RunState → Option ExitStatus
  | .running => none
  | .halted => some .zero
  | .faulted k => some (.nonZero k)

/-- R186: the run is over. -/
def RunState.terminal : RunState → Bool
  | .running => false
  | .halted => true
  | .faulted _ => true

/-- R23, R91, decision D15: the host shows each emitted value as its decimal numeral, one line per value. -/
def State.outputLines (s : State) : List String := s.out.map fun v => Nat.repr v.toNat

end Sys2Proof.Machine
end

