-- ==== Sys2Proof/Safety.lean ====
section
/-! DEFINITION. The words claims are stated in: the invariant of the machine, frames, a successful run, runs of stack
operations, and R80's step function as the spec's own pseudocode gives it, which `step` is claimed to refine. -/

namespace Sys2Proof.Machine

/-! ### The invariant -/

/-- What holds of the machine at every moment: memory is in its canonical form, `pc` is in [0,256] (R17), at most one flag
is set (R18), the parameters are admissible (R5), and the unreachable fault has not been raised (R104). -/
structure State.Inv (s : State) : Prop where
  memory : s.mem.wf
  pc : s.pc ≤ 256
  flags : s.flags.AtMostOne
  config : s.config.Admissible
  alu : s.run ≠ .faulted .unsupportedALUOperation

/-! ### Frames -/

/-- Every byte of memory reads as before. -/
def SameMemory (s t : State) : Prop := ∀ a : Nat, t.mem.read a = s.mem.read a

/-- Every byte of memory outside the one at `a` reads as before. -/
def SameMemoryBut (a : Int) (s t : State) : Prop := ∀ b : Nat, (b : Int) ≠ a → t.mem.read b = s.mem.read b

/-- Every register reads as before. -/
def SameRegs (s t : State) : Prop := ∀ r : Reg, t.reg r = s.reg r

/-- Every register but those named reads as before. -/
def SameRegsBut (named : List Reg) (s t : State) : Prop := ∀ r : Reg, r ∉ named → t.reg r = s.reg r

/-- Nothing but memory, registers, `pc` and the flags differs. -/
def SameStatus (s t : State) : Prop := t.run = s.run ∧ t.out = s.out ∧ t.config = s.config

/-- The two states differ in `out` at most. -/
def SameButOut (s t : State) : Prop := t = { s with out := t.out }

/-! ### Fetch and faults -/

/-- The machine runs, and the byte at `pc` is the opcode byte of `m`. -/
def AtOpcode (m : Mnemonic) (s : State) : Prop :=
  s.run = .running ∧ s.config.opc.Injective ∧ s.pc ≤ 255 ∧ s.mem.read s.pc = s.config.opc.byte m

/-- The bytes of `i` lie in memory at `pc`. -/
def HoldsAtPc (i : Instr) (s : State) : Prop :=
  ∀ k (h : k < (encode s.config.opc i).length),
    s.pc + k ≤ 255 ∧ s.mem.read (s.pc + k) = (encode s.config.opc i)[k]

/-- The next cycle takes the fault `k`. -/
def StepFaults (s : State) (k : FaultKind) : Prop := ∃ t, step s = .next t ∧ t.run = .faulted k

/-! ### Runs -/

/-- R186: a successful run ends in `Halted`. -/
def State.Successful (s : State) : Prop := s.run = .halted

/-- `n` cycles, stopping where the machine stops. -/
def runFor (n : Nat) (s : State) : Host.Outcome State Fault Refusal := Host.Core.run Sys2Proof.core n s

/-- The pushes of a list of values, one after another, up to the first that faults (R114). -/
def pushAll : List Byte → State → Except FaultKind State
  | [], s => .ok s
  | v :: vs, s => do pushAll vs (← push v s)

/-- `n` pops, one after another, with the values in the order they came, up to the first that faults (R114). -/
def popMany : Nat → State → Except FaultKind (List Byte × State)
  | 0, s => .ok ([], s)
  | n + 1, s => do
    let (v, t) ← pop s
    let (vs, u) ← popMany n t
    return (v :: vs, u)

/-! ### R80, as the spec writes it -/

/-- Steps 4 and 5 of R80: `ra`, `rb` are the registers `b1`, `b2` name, `imm` is `b2` as a value. `SP - 1` and `SP + 1` are
written with the byte arithmetic of the words, which the tests before them make exact. -/
def executeR80 (m : Mnemonic) (ra rb : Reg) (imm : Byte) (s : State) : State :=
  let overflow := s.sp = 0 ∨ s.sp.toNat - 1 < s.config.progLen ∨ s.sp.toNat > s.config.stackTop.toNat
  match m with
  | .ldi => { s.setReg ra imm with pc := s.pc + 3 }
  | .prn => { s with out := s.out ++ [s.reg ra], pc := s.pc + 2 }
  | .add => { s.setReg ra (s.reg ra + s.reg rb) with pc := s.pc + 3 }
  | .mul => { s.setReg ra (s.reg ra * s.reg rb) with pc := s.pc + 3 }
  | .push =>
    if overflow then { s with run := .faulted .stackOverflow }
    else { s.setReg spReg (s.sp - 1) with mem := s.mem.write (s.sp - 1).toNat (s.reg ra), pc := s.pc + 2 }
  | .pop =>
    if s.sp = s.config.stackTop then { s with run := .faulted .stackUnderflow }
    else if s.sp = 255 then { s with run := .faulted .addressOutOfRange }
    else
      { (s.setReg spReg (s.sp + 1)).setReg ra (s.mem.read s.sp.toNat) with
        mem := s.mem.write s.sp.toNat 0, pc := s.pc + 2 }
  | .call =>
    if s.pc + 2 > 255 then { s with run := .faulted .addressOutOfRange }
    else if overflow then { s with run := .faulted .stackOverflow }
    else
      { s.setReg spReg (s.sp - 1) with
        mem := s.mem.write (s.sp - 1).toNat (BitVec.ofNat 8 (s.pc + 2)), pc := (s.reg ra).toNat }
  | .ret =>
    if s.sp = s.config.stackTop then { s with run := .faulted .stackUnderflow }
    else if s.sp = 255 then { s with run := .faulted .addressOutOfRange }
    else
      { s.setReg spReg (s.sp + 1) with
        mem := s.mem.write s.sp.toNat 0, pc := (s.mem.read s.sp.toNat).toNat }
  | .cmp =>
    { s with
      flags := { l := decide (s.reg ra < s.reg rb), g := decide (s.reg rb < s.reg ra), e := decide (s.reg ra = s.reg rb) }
      pc := s.pc + 3 }
  | .jmp => { s with pc := (s.reg ra).toNat }
  | .jeq => { s with pc := if s.flags.e = true then (s.reg ra).toNat else s.pc + 2 }
  | .jne => { s with pc := if s.flags.e = false then (s.reg ra).toNat else s.pc + 2 }
  | .hlt => { s with run := .halted }

/-- R80: one cycle, defined when `run = Running`, with the checks in the order of R83. -/
def cycleR80 (s : State) : State :=
  if s.pc > 255 then { s with run := .faulted .addressOutOfRange }
  else
    match Mnemonic.all.find? fun m => s.config.opc.byte m == s.mem.read s.pc with
    | none => { s with run := .faulted .unknownOpcode }
    | some m =>
      if s.pc + m.operandCount > 255 then { s with run := .faulted .addressOutOfRange }
      else if m.format ≠ .z ∧ (s.mem.read (s.pc + 1)).toNat > 7 then { s with run := .faulted .invalidRegister }
      else if m.format = .rr ∧ (s.mem.read (s.pc + 2)).toNat > 7 then { s with run := .faulted .invalidRegister }
      else
        executeR80 m (Fin.ofNat 8 (s.mem.read (s.pc + 1)).toNat) (Fin.ofNat 8 (s.mem.read (s.pc + 2)).toNat)
          (s.mem.read (s.pc + 2)) s

end Sys2Proof.Machine
end

