-- ==== Sys2Proof/Certificates/Slice0/Obligations.lean ====
section
/-! DEFINITION. The statements for the provers. `r.byte` ranges over the legal register bytes (R52); what a form with an
illegal one does is stated by `IllFormedInstructionRaisesInvalidRegister`. Where a statement rests on a decision the spec
marks as its own (D<n>), its docstring names it. -/

open Sys2Proof
open Sys2Proof.Machine

/-! ### Encoding -/

/-- R50 to R53, R56: under any injective `OPC`, decoding the encoding of a well-formed instruction, whatever follows it,
gives the instruction back with what follows. -/
def Obligations.DecodeEncodeRoundTrip : Prop :=
  ∀ (o : OpcodeMap) (i : Instr) (rest : List Byte), o.Injective → i.wellFormed = true →
    decode o (encode o i ++ rest) = .ok (i, rest)

/-- R50 to R53, R56: what the decoder accepts is a well-formed instruction, and its encoding is exactly the bytes the
decoder consumed; so no two byte sequences decode to one instruction. -/
def Obligations.DecodedInstructionReencodes : Prop :=
  ∀ (o : OpcodeMap) (bytes rest : List Byte) (i : Instr), decode o bytes = .ok (i, rest) →
    i.wellFormed = true ∧ bytes = encode o i ++ rest

/-- R72, R73, R74: what the decoder rejects, and under which name. The order of the checks is decision D9. -/
def Obligations.DecodeRejectsByName : Prop :=
  (∀ o : OpcodeMap, decode o [] = .error .noOpcode) ∧
  (∀ (o : OpcodeMap) (op : Byte) (tail : List Byte), (∀ m, o.byte m ≠ op) →
    decode o (op :: tail) = .error .unknownOpcode) ∧
  (∀ (o : OpcodeMap) (m : Mnemonic) (tail : List Byte), o.Injective → tail.length < m.operandCount →
    decode o (o.byte m :: tail) = .error .missingOperand) ∧
  (∀ (o : OpcodeMap) (i : Instr) (rest : List Byte), o.Injective → i.wellFormed = false →
    decode o (encode o i ++ rest) = .error .invalidRegister)

/-- R51, R55: words written out bit by bit from the formats and the default opcode table (decision D1) decode to the
instructions they stand for; the first byte is the low one. -/
def Obligations.WrittenOutWordsDecode : Prop :=
  decodeTableWord 24 0b11111111_00000110_10000010 = some (.ldi 6 255) ∧
  decodeTableWord 16 0b00000111_01000111 = some (.prn 7) ∧
  decodeTableWord 24 0b00000001_00000101_10100000 = some (.add 5 1) ∧
  decodeTableWord 16 0b00000011_01000101 = some (.push 3) ∧
  decodeTableWord 8 0b00010001 = some .ret ∧
  decodeTableWord 24 0b00000010_00000000_10100111 = some (.cmp 0 2) ∧
  decodeTableWord 8 0b00000001 = some .hlt ∧
  decodeTableWord 16 0b00001000_01000111 = none ∧
  decodeTableWord 8 0b00000000 = none

/-! ### Reset, load, and the invariant -/

/-- R180: what reset leaves, for every `STACK_TOP` and `OPC`. -/
def Obligations.ResetLeavesSpecifiedValues : Prop :=
  ∀ (top : Byte) (o : OpcodeMap),
    (∀ a : Nat, (State.resetWith top o).mem.read a = 0) ∧
    (∀ r : Reg, r ≠ spReg → (State.resetWith top o).reg r = 0) ∧
    (State.resetWith top o).sp = top ∧
    (State.resetWith top o).pc = 0 ∧
    ((State.resetWith top o).flags.l = false ∧ (State.resetWith top o).flags.g = false ∧
      (State.resetWith top o).flags.e = false) ∧
    (State.resetWith top o).out = [] ∧
    (State.resetWith top o).run = .running

/-- R181, R182: booting with at most 256 bytes puts byte k at address k, leaves every other cell 0 and every other part of
the state as reset left it, and fixes `PROG_LEN`; a longer program does not start. The limit is decision D16. -/
def Obligations.BootLoadsProgram : Prop :=
  ∀ (top : Byte) (o : OpcodeMap) (bytes : List Byte),
    (bytes.length ≤ 256 → ∃ s, boot top o bytes = some s ∧
      (∀ a : Nat, s.mem.read a = bytes.getD a 0) ∧
      s.config = { stackTop := top, progLen := bytes.length, opc := o } ∧
      SameRegs (State.resetWith top o) s ∧ s.pc = 0 ∧ s.flags = (State.resetWith top o).flags ∧ s.out = [] ∧
      s.run = .running) ∧
    (bytes.length > 256 → boot top o bytes = none)

/-- R60, R158: the Loader's text format. A text of one byte a line, each with any comment, gives those bytes; a comment
line and a blank line are skipped; a token that is not 8 binary digits is `MalformedInstructionLine`; and a launch from a
text that parses starts the machine that booting its bytes gives. Which characters are white space is the model's choice
(log entry 25). -/
def Obligations.LoaderReadsTextFormat : Prop :=
  (∀ ls : List (Byte × List Char), (∀ l ∈ ls, '\n' ∉ l.2) → parseProgram (programText ls) = .ok (ls.map (·.1))) ∧
  (∀ blanks comment rest : List Char, (∀ c ∈ blanks, c = ' ' ∨ c = '\t') → '\n' ∉ comment →
    parseProgram (blanks ++ '#' :: comment ++ '\n' :: rest) = parseProgram rest ∧
    parseProgram (blanks ++ '\n' :: rest) = parseProgram rest) ∧
  (∀ token rest : List Char, token ≠ [] → (∀ c ∈ token, c ≠ '#' ∧ c.isWhitespace = false) →
    ¬ (token.length = 8 ∧ ∀ c ∈ token, c = '0' ∨ c = '1') →
    parseProgram (token ++ '\n' :: rest) = .error .malformedInstructionLine) ∧
  (∀ (top : Byte) (o : OpcodeMap) (text : List Char) (bytes : List Byte) (s : State),
    parseProgram text = .ok bytes → boot top o bytes = some s → launch top o (.text text) = .ok s)

/-- The invariant holds right after reset, under the default parameters and under every injective `OPC`. The defaults are
the model's `OPC` and `STACK_TOP` (log entries 2 and 3, PRESUMED from decisions D1 and D2) and `PROG_LEN` = 0 before a load
(log entry 4, DESIGN CHOICE); the memory clause is about the model's own list form (log entry 17, DESIGN CHOICE). -/
def Obligations.InvariantHoldsAtReset : Prop :=
  State.reset.Inv ∧ ∀ (top : Byte) (o : OpcodeMap), o.Injective → (State.resetWith top o).Inv

/-- The invariant holds when a loaded program starts. That `PROG_LEN` is then at most 256 is decision D16 (log entry 16);
the memory clause is about the model's own list form (log entry 17, DESIGN CHOICE). -/
def Obligations.InvariantHoldsAfterBoot : Prop :=
  ∀ (top : Byte) (o : OpcodeMap) (bytes : List Byte) (s : State), o.Injective → boot top o bytes = some s → s.Inv

/-- R17, R18, R24, R30, R104, from every state: one step keeps memory canonical, `pc` in [0,256], at most one flag set,
the parameters admissible, and the unreachable fault unraised. That `pc` can be 256 is decision D6 (log entry 7); the
canonical form of memory is the model's (log entry 17, DESIGN CHOICE). -/
def Obligations.InvariantKeptByStep : Prop :=
  ∀ s t : State, s.Inv → step s = .next t → t.Inv

/-- R24: no step changes `STACK_TOP`, `PROG_LEN` or `OPC`. That `PROG_LEN` stays fixed is decision D3. -/
def Obligations.ConfigurationKeptByStep : Prop :=
  ∀ s t : State, step s = .next t → t.config = s.config

/-- Two memories in canonical form that read alike at every address are equal as data (the model's own form of R21). -/
def Obligations.CanonicalMemoriesThatReadAlikeAreEqual : Prop :=
  ∀ m m' : Memory, m.wf → m'.wf → (∀ a : Nat, m.read a = m'.read a) → m = m'

/-! ### The primitives -/

/-- R31, with R32 for the write: an access outside [0,255] fails with `AddressOutOfRange`; inside, a read returns the value
last stored, 0 if never written, and a write changes only its cell. -/
def Obligations.MemoryAccessPrimitives : Prop :=
  (∀ (a : Int) (s : State) (v : Byte), a < 0 ∨ a > 255 →
    memRead a s = .error .addressOutOfRange ∧ memWrite a v s = .error .addressOutOfRange) ∧
  (∀ (a : Int) (s : State) (v : Byte), 0 ≤ a → a ≤ 255 →
    memRead a s = .ok (s.mem.read a.toNat) ∧
    ∃ t, memWrite a v s = .ok t ∧ memRead a t = .ok v ∧ SameMemoryBut a s t ∧ SameRegs s t ∧ t.pc = s.pc ∧
      t.flags = s.flags ∧ SameStatus s t) ∧
  (∀ (a : Int) (top : Byte) (o : OpcodeMap), 0 ≤ a → a ≤ 255 → memRead a (State.resetWith top o) = .ok 0)

/-- R100: the ALU's two operations are the sum and the product modulo 256, for all operands. -/
def Obligations.AluWrapsModulo256 : Prop :=
  ∀ a b : Byte,
    (∃ v, alu .add a b = .ok v ∧ v.toNat = (a.toNat + b.toNat) % 256) ∧
    (∃ v, alu .multiply a b = .ok v ∧ v.toNat = (a.toNat * b.toNat) % 256)

/-- R130: the compare function on all pairs. -/
def Obligations.CompareSetsExactlyOneFlag : Prop :=
  ∀ a b : Byte,
    ((Flags.compare a b).l = true ↔ a.toNat < b.toNat) ∧
    ((Flags.compare a b).g = true ↔ a.toNat > b.toNat) ∧
    ((Flags.compare a b).e = true ↔ a.toNat = b.toNat) ∧
    (Flags.compare a b).ExactlyOne

/-! ### What each instruction does, and that it completes -/

/-- R90, the execute step: LDI completes in every state; only the named register and `pc` change. -/
def Obligations.LdiCompletes : Prop :=
  ∀ (r : Reg) (imm : Byte) (s : State), ∃ t, exec (.ldi r.byte imm) s = .next t ∧
    t.reg r = imm ∧ SameRegsBut [r] s t ∧ t.pc = s.pc + 3 ∧ t.flags = s.flags ∧ SameMemory s t ∧ SameStatus s t

/-- R91, the execute step: PRN completes in every state; it appends the register's value to `out`, and changes only that
and `pc`. -/
def Obligations.PrnCompletes : Prop :=
  ∀ (r : Reg) (s : State), ∃ t, exec (.prn r.byte) s = .next t ∧
    t.out = s.out ++ [s.reg r] ∧ SameRegs s t ∧ t.pc = s.pc + 2 ∧ t.flags = s.flags ∧ SameMemory s t ∧
    t.run = s.run ∧ t.config = s.config

/-- R101, the execute step: ADD completes in every state, also when both operands are one register or R7. -/
def Obligations.AddCompletes : Prop :=
  ∀ (ra rb : Reg) (s : State), ∃ t, exec (.add ra.byte rb.byte) s = .next t ∧
    (t.reg ra).toNat = ((s.reg ra).toNat + (s.reg rb).toNat) % 256 ∧ SameRegsBut [ra] s t ∧ t.pc = s.pc + 3 ∧
    t.flags = s.flags ∧ SameMemory s t ∧ SameStatus s t

/-- R102, the execute step: MUL completes in every state, also when both operands are one register or R7. -/
def Obligations.MulCompletes : Prop :=
  ∀ (ra rb : Reg) (s : State), ∃ t, exec (.mul ra.byte rb.byte) s = .next t ∧
    (t.reg ra).toNat = ((s.reg ra).toNat * (s.reg rb).toNat) % 256 ∧ SameRegsBut [ra] s t ∧ t.pc = s.pc + 3 ∧
    t.flags = s.flags ∧ SameMemory s t ∧ SameStatus s t

/-- R112, R110: PUSH completes when SP - 1 is in the stack region (decision D4); it stores the value the register had
before SP moved (R82, decision D10), at SP - 1 and nowhere else. -/
def Obligations.PushCompletes : Prop :=
  ∀ (r : Reg) (s : State),
    (s.config.progLen : Int) ≤ pushAddress s → pushAddress s ≤ (s.config.stackTop.toNat : Int) - 1 →
    ∃ t, exec (.push r.byte) s = .next t ∧
      (t.sp.toNat : Int) = pushAddress s ∧ t.mem.read (pushAddress s).toNat = s.reg r ∧
      SameMemoryBut (pushAddress s) s t ∧ SameRegsBut [spReg] s t ∧ t.pc = s.pc + 2 ∧ t.flags = s.flags ∧
      SameStatus s t

/-- R113, R111: POP completes when SP is neither `STACK_TOP` nor 255 (the second is decision D8); the cell at SP is read,
then cleared, SP is one higher, and the register is written last, so POP R7 leaves the popped value there (decision D11). -/
def Obligations.PopCompletes : Prop :=
  ∀ (r : Reg) (s : State), s.sp ≠ s.config.stackTop → s.sp.toNat ≠ 255 →
    ∃ t, exec (.pop r.byte) s = .next t ∧
      t.reg r = s.mem.read s.sp.toNat ∧ (r ≠ spReg → t.sp.toNat = s.sp.toNat + 1) ∧ t.mem.read s.sp.toNat = 0 ∧
      SameMemoryBut s.sp.toNat s t ∧ SameRegsBut [r, spReg] s t ∧ t.pc = s.pc + 2 ∧ t.flags = s.flags ∧
      SameStatus s t

/-- R120: CALL completes when its return address is at most 255 (decision D7) and SP - 1 is in the stack region (decision
D4); it pushes `pc + 2` and goes to the value the register had before SP moved (R82, decision D10). -/
def Obligations.CallCompletes : Prop :=
  ∀ (r : Reg) (s : State), s.pc + 2 ≤ 255 →
    (s.config.progLen : Int) ≤ pushAddress s → pushAddress s ≤ (s.config.stackTop.toNat : Int) - 1 →
    ∃ t, exec (.call r.byte) s = .next t ∧
      t.pc = (s.reg r).toNat ∧ (t.sp.toNat : Int) = pushAddress s ∧
      (t.mem.read (pushAddress s).toNat).toNat = s.pc + 2 ∧ SameMemoryBut (pushAddress s) s t ∧
      SameRegsBut [spReg] s t ∧ t.flags = s.flags ∧ SameStatus s t

/-- R121: RET completes when SP is neither `STACK_TOP` nor 255 (the second is decision D8). -/
def Obligations.RetCompletes : Prop :=
  ∀ s : State, s.sp ≠ s.config.stackTop → s.sp.toNat ≠ 255 →
    ∃ t, exec .ret s = .next t ∧
      t.pc = (s.mem.read s.sp.toNat).toNat ∧ t.sp.toNat = s.sp.toNat + 1 ∧ t.mem.read s.sp.toNat = 0 ∧
      SameMemoryBut s.sp.toNat s t ∧ SameRegsBut [spReg] s t ∧ t.flags = s.flags ∧ SameStatus s t

/-- R131, the execute step: CMP completes in every state; it writes all three flags, and nothing else but `pc`. -/
def Obligations.CmpCompletes : Prop :=
  ∀ (ra rb : Reg) (s : State), ∃ t, exec (.cmp ra.byte rb.byte) s = .next t ∧
    (t.flags.l = true ↔ (s.reg ra).toNat < (s.reg rb).toNat) ∧
    (t.flags.g = true ↔ (s.reg ra).toNat > (s.reg rb).toNat) ∧
    (t.flags.e = true ↔ (s.reg ra).toNat = (s.reg rb).toNat) ∧
    SameRegs s t ∧ t.pc = s.pc + 3 ∧ SameMemory s t ∧ SameStatus s t

/-- R132, the execute step: JMP completes in every state and changes only `pc`. -/
def Obligations.JmpCompletes : Prop :=
  ∀ (r : Reg) (s : State), ∃ t, exec (.jmp r.byte) s = .next t ∧
    t.pc = (s.reg r).toNat ∧ SameRegs s t ∧ t.flags = s.flags ∧ SameMemory s t ∧ SameStatus s t

/-- R133, the execute step: JEQ completes in every state and changes only `pc`. -/
def Obligations.JeqCompletes : Prop :=
  ∀ (r : Reg) (s : State), ∃ t, exec (.jeq r.byte) s = .next t ∧
    (s.flags.e = true → t.pc = (s.reg r).toNat) ∧ (s.flags.e = false → t.pc = s.pc + 2) ∧
    SameRegs s t ∧ t.flags = s.flags ∧ SameMemory s t ∧ SameStatus s t

/-- R134, the execute step: JNE completes in every state and changes only `pc`. -/
def Obligations.JneCompletes : Prop :=
  ∀ (r : Reg) (s : State), ∃ t, exec (.jne r.byte) s = .next t ∧
    (s.flags.e = false → t.pc = (s.reg r).toNat) ∧ (s.flags.e = true → t.pc = s.pc + 2) ∧
    SameRegs s t ∧ t.flags = s.flags ∧ SameMemory s t ∧ SameStatus s t

/-- R140: HLT completes in every state and changes only `run`; that `pc` stays is decision D12. -/
def Obligations.HltCompletes : Prop :=
  ∀ s : State, ∃ t, exec .hlt s = .next t ∧
    t.run = .halted ∧ t.pc = s.pc ∧ SameRegs s t ∧ t.flags = s.flags ∧ SameMemory s t ∧ t.out = s.out ∧
    t.config = s.config

/-! ### Whole rules, from the fetch to the result -/

/-- R90, whole: a step at an LDI opcode. -/
def Obligations.LdiFromFetchToResult : Prop :=
  ∀ s : State, AtOpcode .ldi s →
    (s.pc + 2 > 255 → StepFaults s .addressOutOfRange) ∧
    (s.pc + 2 ≤ 255 → (s.mem.read (s.pc + 1)).toNat > 7 → StepFaults s .invalidRegister) ∧
    (s.pc + 2 ≤ 255 → ∀ r : Reg, s.mem.read (s.pc + 1) = r.byte →
      ∃ t, step s = .next t ∧ t.reg r = s.mem.read (s.pc + 2) ∧ SameRegsBut [r] s t ∧ t.pc = s.pc + 3 ∧
        t.flags = s.flags ∧ SameMemory s t ∧ SameStatus s t)

/-- R91, whole: a step at a PRN opcode; one that faults emits nothing. -/
def Obligations.PrnFromFetchToResult : Prop :=
  ∀ s : State, AtOpcode .prn s →
    (s.pc + 1 > 255 → ∃ t, step s = .next t ∧ t.run = .faulted .addressOutOfRange ∧ t.out = s.out) ∧
    (s.pc + 1 ≤ 255 → (s.mem.read (s.pc + 1)).toNat > 7 →
      ∃ t, step s = .next t ∧ t.run = .faulted .invalidRegister ∧ t.out = s.out) ∧
    (s.pc + 1 ≤ 255 → ∀ r : Reg, s.mem.read (s.pc + 1) = r.byte →
      ∃ t, step s = .next t ∧ t.out = s.out ++ [s.reg r] ∧
        t.outputLines = s.outputLines ++ [Nat.repr (s.reg r).toNat] ∧ SameRegs s t ∧ t.pc = s.pc + 2 ∧
        t.flags = s.flags ∧ SameMemory s t ∧ t.run = .running ∧ t.config = s.config)

/-- R101, R102, whole: a step at an ADD or a MUL opcode. -/
def Obligations.AddMulFromFetchToResult : Prop :=
  ∀ s : State, AtOpcode .add s ∨ AtOpcode .mul s →
    (s.pc + 2 > 255 → StepFaults s .addressOutOfRange) ∧
    (s.pc + 2 ≤ 255 → (s.mem.read (s.pc + 1)).toNat > 7 ∨ (s.mem.read (s.pc + 2)).toNat > 7 →
      StepFaults s .invalidRegister) ∧
    (s.pc + 2 ≤ 255 → ∀ ra rb : Reg, s.mem.read (s.pc + 1) = ra.byte → s.mem.read (s.pc + 2) = rb.byte →
      ∃ t, step s = .next t ∧
        (AtOpcode .add s → (t.reg ra).toNat = ((s.reg ra).toNat + (s.reg rb).toNat) % 256) ∧
        (AtOpcode .mul s → (t.reg ra).toNat = ((s.reg ra).toNat * (s.reg rb).toNat) % 256) ∧
        SameRegsBut [ra] s t ∧ t.pc = s.pc + 3 ∧ t.flags = s.flags ∧ SameMemory s t ∧ SameStatus s t)

/-- R131, whole: a step at a CMP opcode. -/
def Obligations.CmpFromFetchToResult : Prop :=
  ∀ s : State, AtOpcode .cmp s →
    (s.pc + 2 > 255 → StepFaults s .addressOutOfRange) ∧
    (s.pc + 2 ≤ 255 → (s.mem.read (s.pc + 1)).toNat > 7 ∨ (s.mem.read (s.pc + 2)).toNat > 7 →
      StepFaults s .invalidRegister) ∧
    (s.pc + 2 ≤ 255 → ∀ ra rb : Reg, s.mem.read (s.pc + 1) = ra.byte → s.mem.read (s.pc + 2) = rb.byte →
      ∃ t, step s = .next t ∧
        (t.flags.l = true ↔ (s.reg ra).toNat < (s.reg rb).toNat) ∧
        (t.flags.g = true ↔ (s.reg ra).toNat > (s.reg rb).toNat) ∧
        (t.flags.e = true ↔ (s.reg ra).toNat = (s.reg rb).toNat) ∧
        t.flags.ExactlyOne ∧ SameRegs s t ∧ t.pc = s.pc + 3 ∧ SameMemory s t ∧ SameStatus s t)

/-- R132, whole: a step at a JMP opcode. -/
def Obligations.JmpFromFetchToResult : Prop :=
  ∀ s : State, AtOpcode .jmp s →
    (s.pc + 1 > 255 → StepFaults s .addressOutOfRange) ∧
    (s.pc + 1 ≤ 255 → (s.mem.read (s.pc + 1)).toNat > 7 → StepFaults s .invalidRegister) ∧
    (s.pc + 1 ≤ 255 → ∀ r : Reg, s.mem.read (s.pc + 1) = r.byte →
      ∃ t, step s = .next t ∧ t.pc = (s.reg r).toNat ∧ SameRegs s t ∧ t.flags = s.flags ∧ SameMemory s t ∧
        SameStatus s t)

/-- R133, R134: a step at a JEQ or a JNE opcode. The two are complements, and each validates its register byte also when
it is not taken (decision D9). -/
def Obligations.JeqJneFromFetchToResult : Prop :=
  ∀ s : State, AtOpcode .jeq s ∨ AtOpcode .jne s →
    (s.pc + 1 > 255 → StepFaults s .addressOutOfRange) ∧
    (s.pc + 1 ≤ 255 → (s.mem.read (s.pc + 1)).toNat > 7 → StepFaults s .invalidRegister) ∧
    (s.pc + 1 ≤ 255 → ∀ r : Reg, s.mem.read (s.pc + 1) = r.byte →
      ∃ t, step s = .next t ∧
        (AtOpcode .jeq s → t.pc = if s.flags.e then (s.reg r).toNat else s.pc + 2) ∧
        (AtOpcode .jne s → t.pc = if s.flags.e then s.pc + 2 else (s.reg r).toNat) ∧
        SameRegs s t ∧ t.flags = s.flags ∧ SameMemory s t ∧ SameStatus s t)

/-! ### Faults -/

/-- R153, R74: an instruction with a register byte above 7 raises `InvalidRegister` and changes nothing else, also a jump
that would not be taken and a stack instruction that would fault otherwise (the order is decision D9). -/
def Obligations.IllFormedInstructionRaisesInvalidRegister : Prop :=
  ∀ (i : Instr) (s : State), i.wellFormed = false → exec i s = .next (s.raise .invalidRegister)

/-- R156, R110: PUSH and CALL raise `StackOverflow`, and change nothing else, when SP - 1 is outside the stack region; the
region is decision D4, CALL's earlier check decision D7 and D9. -/
def Obligations.PushAndCallOverflow : Prop :=
  ∀ (r : Reg) (s : State),
    pushAddress s < s.config.progLen ∨ pushAddress s > (s.config.stackTop.toNat : Int) - 1 →
    exec (.push r.byte) s = .next (s.raise .stackOverflow) ∧
    (s.pc + 2 ≤ 255 → exec (.call r.byte) s = .next (s.raise .stackOverflow))

/-- R157, whole: POP and RET raise `StackUnderflow` when SP is `STACK_TOP`, and nothing else ever does: an instruction
that ends in it is a POP or a RET, and a step that ends in it was at the opcode of one, with SP at `STACK_TOP`. -/
def Obligations.UnderflowExactlyAtEmptyStack : Prop :=
  ∀ s : State, s.run = .running →
    (s.sp = s.config.stackTop →
      (∀ r : Reg, ∃ t, exec (.pop r.byte) s = .next t ∧ t.run = .faulted .stackUnderflow) ∧
      ∃ t, exec .ret s = .next t ∧ t.run = .faulted .stackUnderflow) ∧
    (∀ (i : Instr) (t : State), exec i s = .next t → t.run = .faulted .stackUnderflow →
      s.sp = s.config.stackTop ∧ ((∃ b, i = .pop b) ∨ i = .ret)) ∧
    (∀ t : State, step s = .next t → t.run = .faulted .stackUnderflow →
      s.sp = s.config.stackTop ∧ (s.mem.read s.pc = s.config.opc.pop ∨ s.mem.read s.pc = s.config.opc.ret))

/-- R120, R111: CALL at 254 raises `AddressOutOfRange` (decision D7), whatever the stack holds (decision D9); POP and RET
raise it when SP is 255 and `STACK_TOP` is not (decision D8). Nothing else changes. -/
def Obligations.ExecuteTimeAddressFaults : Prop :=
  ∀ (r : Reg) (s : State),
    (s.pc = 254 → exec (.call r.byte) s = .next (s.raise .addressOutOfRange)) ∧
    (s.sp.toNat = 255 → s.sp ≠ s.config.stackTop →
      exec (.pop r.byte) s = .next (s.raise .addressOutOfRange) ∧
      exec .ret s = .next (s.raise .addressOutOfRange))

/-- R152: the complete list of what raises `AddressOutOfRange` (decisions D6, D7, D8). -/
def Obligations.AddressOutOfRangeOnlyInListedCases : Prop :=
  ∀ s t : State, s.run = .running → step s = .next t → t.run = .faulted .addressOutOfRange →
    s.pc > 255 ∨
    (∃ m, s.mem.read s.pc = s.config.opc.byte m ∧ s.pc + m.operandCount > 255) ∨
    (s.mem.read s.pc = s.config.opc.call ∧ s.pc = 254) ∨
    ((s.mem.read s.pc = s.config.opc.pop ∨ s.mem.read s.pc = s.config.opc.ret) ∧ s.sp.toNat = 255 ∧
      s.config.stackTop.toNat ≠ 255)

/-- R104: the ALU fails on any other request, and no instruction makes one, so no step raises the fault. -/
def Obligations.UnsupportedAluOperationNeverRaised : Prop :=
  (∀ (n : Nat) (a b : Byte), alu (.other n) a b = .error .unsupportedALUOperation) ∧
  (∀ (i : Instr) (s t : State), s.run = .running → exec i s = .next t →
    t.run ≠ .faulted .unsupportedALUOperation) ∧
  (∀ s t : State, step s = .next t → t.run ≠ .faulted .unsupportedALUOperation)

/-- R155, whole: a byte at `pc` that is no opcode ends the run in `Faulted(UnknownOpcode)`, also at address 255, with a
non-zero exit status and no further step; and under every injective `OPC` there are 243 such bytes. -/
def Obligations.UnknownOpcodeEndsTheRun : Prop :=
  (∀ s : State, s.run = .running → s.pc ≤ 255 → (∀ m, s.config.opc.byte m ≠ s.mem.read s.pc) →
    ∃ t, step s = .next t ∧ t.run = .faulted .unknownOpcode ∧
      t.run.exitStatus = some (.nonZero .unknownOpcode) ∧ ∀ u, step t ≠ .next u) ∧
  (∀ o : OpcodeMap, o.Injective → (List.range 256).countP (fun b => (o.lookup (BitVec.ofNat 8 b)).isNone) = 243)

/-- R77, R160: a cycle that ends in a fault changes `run` and nothing else (decision D9). -/
def Obligations.FaultsArePrecise : Prop :=
  ∀ (s t : State) (k : FaultKind), step s = .next t → t.run = .faulted k → t = { s with run := .faulted k }

/-! ### The cycle -/

/-- The meaning of every instruction answers a next state: nothing is refused and nothing is stuck inside an instruction.
That `exec` is defined in every state, also one that does not run, is the model's choice (log entry 22, DESIGN CHOICE), as
are its answer on illegal register bytes (log entry 18, DEDUCED) and that a fault is a next state (log entry 5, DESIGN
CHOICE). It is no completion statement: the next state may be a fault's, and the `Completes` statements say where each
instruction has its own effect. -/
def Obligations.EveryInstructionAnswersANextState : Prop :=
  ∀ (i : Instr) (s : State), ∃ t, exec i s = .next t

/-- R70, R22: there is a step exactly while `run` is `Running`; from a terminal state the machine has no next state, and
it says which one it is in (decision D13). -/
def Obligations.StepsExactlyWhileRunning : Prop :=
  ∀ s : State,
    ((∃ t, step s = .next t) ↔ s.run = .running) ∧
    (s.run = .halted → step s = .fault .noStepHalted) ∧
    (∀ k, s.run = .faulted k → step s = .fault (.noStepFaulted k))

/-- R71 to R75: when the bytes at `pc` decode to an instruction, a step of a running machine is that instruction's
execution, and so it is when they are the encoding of a well-formed instruction. -/
def Obligations.StepRunsDecodedInstruction : Prop :=
  (∀ (s : State) (i : Instr) (rest : List Byte), s.run = .running →
    decode s.config.opc (fetchWindow s) = .ok (i, rest) → step s = exec i s) ∧
  (∀ (s : State) (i : Instr), s.run = .running → s.config.opc.Injective → i.wellFormed = true → HoldsAtPc i s →
    step s = exec i s)

/-- The interface `withFetchWord` (log entry 20): the instruction whose bytes it places at `pc` is what the next step
runs. -/
def Obligations.PlacedInstructionIsRun : Prop :=
  ∀ (s : State) (nbits w : Nat) (i : Instr) (rest : List Byte), s.pc ≤ 253 →
    decode s.config.opc (wordBytes nbits w) = .ok (i, rest) →
    step (s.withFetchWord nbits w) = exec i (s.withFetchWord nbits w)

/-- R80, with R83's order of checks: in every running state, one step of the machine is the spec's own step function. It
rests on every decision R80 carries: D3 and D4 for the bounds of a push (log entry 12), and D6 to D12 (log entries 6 to
11). -/
def Obligations.StepRefinesR80 : Prop :=
  ∀ s : State, s.run = .running → step s = .next (cycleR80 s)

/-! ### Whole-machine rules -/

/-- R18, whole: the flags start cleared, at most one is ever set, after a completed CMP exactly one is, and from then on
exactly one stays set. -/
def Obligations.FlagsAreMutuallyExclusive : Prop :=
  (∀ (top : Byte) (o : OpcodeMap), (State.resetWith top o).flags = { l := false, g := false, e := false }) ∧
  (∀ s t : State, step s = .next t → s.flags.AtMostOne → t.flags.AtMostOne) ∧
  (∀ s t : State, AtOpcode .cmp s → step s = .next t → t.run = .running → t.flags.ExactlyOne) ∧
  (∀ s t : State, step s = .next t → s.flags.ExactlyOne → t.flags.ExactlyOne)

/-- R19, whole: only CMP writes the flags; only JEQ and JNE read them, and only Equal: whatever L and G hold, nothing else
comes out differently, and at any other opcode whatever E holds neither. -/
def Obligations.FlagsWrittenByCmpReadByJumps : Prop :=
  (∀ s t : State, step s = .next t → t.flags ≠ s.flags → s.mem.read s.pc = s.config.opc.cmp) ∧
  (∀ (s t : State) (l g : Bool), step s = .next t →
    ∃ t', step { s with flags := { l := l, g := g, e := s.flags.e } } = .next t' ∧
      t' = { t with flags := t'.flags } ∧ t'.flags.e = t.flags.e) ∧
  (∀ (s t : State) (f : Flags), step s = .next t →
    s.mem.read s.pc ≠ s.config.opc.jeq → s.mem.read s.pc ≠ s.config.opc.jne →
    ∃ t', step { s with flags := f } = .next t' ∧ t' = { t with flags := t'.flags })

/-- R23: a step leaves `out` as it was, or is a PRN and appends its register's value; and no step depends on what `out`
holds (the form of the port is decision D15). -/
def Obligations.OutputAppendedByPrnAndNeverRead : Prop :=
  (∀ s t : State, step s = .next t →
    t.out = s.out ∨
      (s.mem.read s.pc = s.config.opc.prn ∧
        ∃ r : Reg, s.mem.read (s.pc + 1) = r.byte ∧ t.out = s.out ++ [s.reg r])) ∧
  (∀ (s t : State) (o : List Byte), step s = .next t →
    step { s with out := o } = .next { t with out := o ++ t.out.drop s.out.length })

/-- R46, R41: a cell changes only by the push of a PUSH or a CALL, at SP - 1 inside the stack region (decision D4), or by
the clear of a POP or a RET, at SP, to 0. -/
def Obligations.MemoryChangedOnlyThroughTheStack : Prop :=
  ∀ s t : State, step s = .next t → ∀ a : Nat, t.mem.read a ≠ s.mem.read a →
    ((s.mem.read s.pc = s.config.opc.push ∨ s.mem.read s.pc = s.config.opc.call) ∧
      (a : Int) = pushAddress s ∧ s.config.progLen ≤ a ∧ a < s.config.stackTop.toNat) ∨
    ((s.mem.read s.pc = s.config.opc.pop ∨ s.mem.read s.pc = s.config.opc.ret) ∧
      a = s.sp.toNat ∧ t.mem.read a = 0)

/-- R14, the registers written: a register changes only as the destination of LDI, ADD, MUL or POP, or as SP by a stack
instruction. -/
def Obligations.RegistersChangedOnlyAsTabled : Prop :=
  ∀ s t : State, step s = .next t → ∀ q : Reg, t.reg q ≠ s.reg q →
    ((s.mem.read s.pc = s.config.opc.ldi ∨ s.mem.read s.pc = s.config.opc.add ∨
        s.mem.read s.pc = s.config.opc.mul ∨ s.mem.read s.pc = s.config.opc.pop) ∧
      s.mem.read (s.pc + 1) = q.byte) ∨
    (q = spReg ∧
      (s.mem.read s.pc = s.config.opc.push ∨ s.mem.read s.pc = s.config.opc.pop ∨
        s.mem.read s.pc = s.config.opc.call ∨ s.mem.read s.pc = s.config.opc.ret))

/-- R40, R41, over runs of any length from any state: a cell outside the stack region keeps its value or is cleared to 0;
no program can write another value there (decisions D3, D4). -/
def Obligations.OutsideStackRegionOnlyCleared : Prop :=
  ∀ (n : Nat) (s t : State), runFor n s = .next t → ∀ a : Nat,
    ¬ (s.config.progLen ≤ a ∧ a < s.config.stackTop.toNat) →
    t.mem.read a = s.mem.read a ∨ t.mem.read a = 0

/-- R186, R78: `Halted` is reached only by HLT, which leaves everything else as it was (`pc`: decision D12). -/
def Obligations.HaltedOnlyByHlt : Prop :=
  ∀ s t : State, step s = .next t → t.run = .halted →
    s.mem.read s.pc = s.config.opc.hlt ∧ t = { s with run := .halted }

/-- R45: a pushed byte is what a fetch at its address then reads as the opcode byte: code on the stack can be executed at
once. -/
def Obligations.PushedByteIsFetchedAsOpcode : Prop :=
  ∀ (v : Byte) (s t : State), push v s = .ok t →
    (fetchWindow { t with pc := t.sp.toNat }).head? = some v

/-! ### The stack as a whole -/

/-- R114, with R110 and R111: when a sequence of pushes succeeds, as many pops succeed, return the values in reverse order, bring SP back and
leave the cells used at 0; registers and every other cell are as before the pushes. -/
def Obligations.PushesThenPopsAreLifo : Prop :=
  ∀ (vs : List Byte) (s t : State), pushAll vs s = .ok t →
    ∃ u, popMany vs.length t = .ok (vs.reverse, u) ∧ u.sp = s.sp ∧ SameRegs s u ∧ u.pc = s.pc ∧
      u.flags = s.flags ∧ SameStatus s u ∧
      ∀ a : Nat, u.mem.read a =
        if s.sp.toNat - vs.length ≤ a ∧ a < s.sp.toNat then 0 else s.mem.read a

/-- R112, R40: from the empty stack exactly `STACK_TOP` - `PROG_LEN` pushes succeed (none if the program reaches the top);
one more raises `StackOverflow` (decision D4). -/
def Obligations.StackCapacityFromEmpty : Prop :=
  ∀ (vs : List Byte) (s : State), s.sp = s.config.stackTop →
    (vs.length ≤ s.config.stackTop.toNat - s.config.progLen → ∃ t, pushAll vs s = .ok t) ∧
    (vs.length > s.config.stackTop.toNat - s.config.progLen → pushAll vs s = .error .stackOverflow)

/-- R122: a RET that finds SP and the stack entry as a CALL left them resumes after the CALL, brings SP back and clears the
entry, whatever the subroutine did otherwise. -/
def Obligations.CallThenRetResumes : Prop :=
  ∀ (r : Reg) (s t u : State), s.run = .running → exec (.call r.byte) s = .next t → t.run = .running →
    u.sp = t.sp → u.mem.read t.sp.toNat = t.mem.read t.sp.toNat → u.config = t.config →
    ∃ w, exec .ret u = .next w ∧ w.pc = s.pc + 2 ∧ w.sp = s.sp ∧ w.mem.read t.sp.toNat = 0

/-! ### Runs and the outside -/

/-- R187: a run that comes back to a state it was in, `out` apart, repeats for ever: it is there again after every
multiple of that many cycles, and it never stops. -/
def Obligations.RepeatedStateRepeatsForever : Prop :=
  ∀ (n : Nat) (s t : State), runFor n s = .next t → SameButOut s t →
    (∀ k : Nat, ∃ u, runFor (k * n) s = .next u ∧ SameButOut s u) ∧
    (0 < n → ∀ k : Nat, ∃ u, runFor k s = .next u)

/-- R151, R169, R20: what is shown outside: each fault kind's own code, 1 to 6 in the order of the spec's table, and 0 for
no fault (decision D14, log entry 14); exit status zero exactly for `Halted` (log entry 24); and `FL` as the byte
`0b00000LGE` (decision D5, log entry 13). -/
def Obligations.OutsideViewOfStatus : Prop :=
  ((RunState.faulted .addressOutOfRange).faultCode = 1 ∧ (RunState.faulted .invalidRegister).faultCode = 2 ∧
    (RunState.faulted .unsupportedALUOperation).faultCode = 3 ∧ (RunState.faulted .unknownOpcode).faultCode = 4 ∧
    (RunState.faulted .stackOverflow).faultCode = 5 ∧ (RunState.faulted .stackUnderflow).faultCode = 6) ∧
  (∀ run : RunState, run.faultCode ≤ 6 ∧ (run.faultCode = 0 ↔ run = .running ∨ run = .halted)) ∧
  (∀ k k' : FaultKind, k.code = k'.code → k = k') ∧
  (∀ run : RunState, run.exitStatus = some .zero ↔ run = .halted) ∧
  (∀ (run : RunState) (k : FaultKind), run.exitStatus = some (.nonZero k) ↔ run = .faulted k) ∧
  (∀ f : Flags, f.toByte.toNat = 4 * f.l.toNat + 2 * f.g.toNat + f.e.toNat)
end

