-- ==== Sys2Proof/Laws/Operands.lean ====
section
/-! SUPPORT. The register operand: which bytes name a register, and what the others raise. -/

namespace Sys2Proof

@[simp] theorem Reg.toNat_byte (r : Reg) : r.byte.toNat = r.val := by
  have := r.isLt
  simp only [Reg.byte, BitVec.toNat_ofNat]
  omega

@[simp] theorem validReg_byte (r : Reg) : validReg r.byte = true := by
  have := r.isLt
  simp only [validReg, Reg.toNat_byte, decide_eq_true_eq]
  omega

/-- A legal register byte names exactly one register. -/
theorem exists_reg_of_validReg (b : Byte) (h : validReg b = true) : ∃ r : Reg, b = r.byte := by
  have h8 : b.toNat < 8 := by simp only [validReg, decide_eq_true_eq] at h; omega
  exact ⟨⟨b.toNat, h8⟩, BitVec.eq_of_toNat_eq (by simp)⟩

namespace Machine

@[simp] theorem regOperand_byte (r : Reg) : regOperand r.byte = .ok r := by
  have h : r.byte.toNat < 8 := by rw [Reg.toNat_byte]; exact r.isLt
  simp [regOperand]

theorem regOperand_of_invalid (b : Byte) (h : validReg b = false) : regOperand b = .error .invalidRegister := by
  have h8 : ¬ b.toNat < 8 := by simp only [validReg, decide_eq_false_iff_not] at h; omega
  simp [regOperand, h8]

/-- All that resolving a register operand can do. -/
theorem regOperand_cases (b : Byte) :
    (∃ r : Reg, b = r.byte ∧ regOperand b = .ok r) ∨ (validReg b = false ∧ regOperand b = .error .invalidRegister) := by
  cases h : validReg b with
  | true => obtain ⟨r, rfl⟩ := exists_reg_of_validReg b h; exact .inl ⟨r, rfl, regOperand_byte r⟩
  | false => exact .inr ⟨rfl, regOperand_of_invalid b h⟩

@[simp] theorem immOperand_eq (b : Byte) : immOperand b = b := rfl

end Machine

end Sys2Proof
end

