-- ==== Sys2Proof/Laws/Decode.lean ====
section
/-! SUPPORT. Small facts about the opcode lookup and the operand bytes, for proofs about decode and encode. -/

namespace Sys2Proof

theorem Mnemonic.mem_all (m : Mnemonic) : m ∈ Mnemonic.all := by cases m <;> decide

theorem OpcodeMap.default_injective : OpcodeMap.default.Injective := by decide

theorem OpcodeMap.Injective.eq {o : OpcodeMap} (h : o.Injective) {m m' : Mnemonic} (e : o.byte m = o.byte m') :
    m = m' := h m m.mem_all m' m'.mem_all e

/-- What the lookup finds has that opcode byte, for any table. -/
theorem OpcodeMap.byte_of_lookup {o : OpcodeMap} {op : Byte} {m : Mnemonic} (h : o.lookup op = some m) : o.byte m = op := by
  simpa using List.find?_some h

/-- The lookup finds nothing exactly when no row has the byte (R58). -/
theorem OpcodeMap.lookup_eq_none {o : OpcodeMap} {op : Byte} : o.lookup op = none ↔ ∀ m, o.byte m ≠ op := by
  simp only [OpcodeMap.lookup, List.find?_eq_none, beq_iff_eq]
  exact ⟨fun h m => h m m.mem_all, fun h m _ => h m⟩

/-- Under an injective table the lookup finds the row of each opcode byte. -/
theorem OpcodeMap.lookup_byte {o : OpcodeMap} (ho : o.Injective) (m : Mnemonic) : o.lookup (o.byte m) = some m := by
  cases h : o.lookup (o.byte m) with
  | none => exact absurd rfl (OpcodeMap.lookup_eq_none.1 h m)
  | some m' => rw [ho.eq (OpcodeMap.byte_of_lookup h)]

/-- The row of an assembled instruction is the row it was assembled from. -/
@[simp] theorem mnemonic_assemble (m : Mnemonic) (b1 b2 : Byte) : (assemble m b1 b2).mnemonic = m := by cases m <;> rfl

/-- What the operands of a format take from the front of a byte list is put back by the assembled instruction. -/
theorem operandBytes_assemble {m : Mnemonic} {tail rest : List Byte} {b1 b2 : Byte}
    (h : takeOperands m.format tail = some (b1, b2, rest)) : tail = (assemble m b1 b2).operandBytes ++ rest := by
  cases m <;> (
    rcases tail with _ | ⟨c, _ | ⟨d, tail⟩⟩ <;>
      simp only [Mnemonic.format, takeOperands, Option.some.injEq, Prod.mk.injEq, reduceCtorEq] at h <;>
      simp [assemble, Instr.operandBytes, h])

/-- The operand bytes of an instruction, followed by anything, are taken whole, and assemble to that instruction. -/
theorem takeOperands_operandBytes (i : Instr) (rest : List Byte) :
    ∃ b1 b2, takeOperands i.mnemonic.format (i.operandBytes ++ rest) = some (b1, b2, rest) ∧
      assemble i.mnemonic b1 b2 = i := by
  cases i <;> exact ⟨_, _, rfl, rfl⟩

/-- All that a successful decode can be: the head byte is a row's opcode, its operands are there, and they are legal. -/
theorem decode_ok {o : OpcodeMap} {bytes rest : List Byte} {i : Instr} (h : decode o bytes = .ok (i, rest)) :
    ∃ op tail m b1 b2, bytes = op :: tail ∧ o.lookup op = some m ∧ takeOperands m.format tail = some (b1, b2, rest) ∧
      i = assemble m b1 b2 ∧ i.wellFormed = true := by
  unfold decode at h
  split at h
  · cases h
  · split at h
    · cases h
    · split at h
      · cases h
      · split at h
        · cases h
          exact ⟨_, _, _, _, _, rfl, ‹_›, ‹_›, rfl, ‹_›⟩
        · cases h

/-! ### The operand count of each instruction -/

@[simp] theorem operandCount_ldi (a b : Byte) : (Instr.ldi a b).mnemonic.operandCount = 2 := rfl
@[simp] theorem operandCount_prn (a : Byte) : (Instr.prn a).mnemonic.operandCount = 1 := rfl
@[simp] theorem operandCount_add (a b : Byte) : (Instr.add a b).mnemonic.operandCount = 2 := rfl
@[simp] theorem operandCount_mul (a b : Byte) : (Instr.mul a b).mnemonic.operandCount = 2 := rfl
@[simp] theorem operandCount_push (a : Byte) : (Instr.push a).mnemonic.operandCount = 1 := rfl
@[simp] theorem operandCount_pop (a : Byte) : (Instr.pop a).mnemonic.operandCount = 1 := rfl
@[simp] theorem operandCount_call (a : Byte) : (Instr.call a).mnemonic.operandCount = 1 := rfl
@[simp] theorem operandCount_ret : Instr.ret.mnemonic.operandCount = 0 := rfl
@[simp] theorem operandCount_cmp (a b : Byte) : (Instr.cmp a b).mnemonic.operandCount = 2 := rfl
@[simp] theorem operandCount_jmp (a : Byte) : (Instr.jmp a).mnemonic.operandCount = 1 := rfl
@[simp] theorem operandCount_jeq (a : Byte) : (Instr.jeq a).mnemonic.operandCount = 1 := rfl
@[simp] theorem operandCount_jne (a : Byte) : (Instr.jne a).mnemonic.operandCount = 1 := rfl
@[simp] theorem operandCount_hlt : Instr.hlt.mnemonic.operandCount = 0 := rfl

end Sys2Proof
end

