-- ==== Sys2Proof/Laws/Memory.lean ====
section
/-! SUPPORT. The laws of memory: a read after a write, and that every memory operation keeps the canonical form. -/

namespace Sys2Proof.Machine

theorem Memory.read_insertCell_same (m : Memory) (a : Nat) (v : Byte) (h : ∀ c ∈ m, c.1 ≠ a) :
    (Memory.insertCell a v m).read a = v := by
  induction m with
  | nil => simp [Memory.insertCell, Memory.read]
  | cons c m ih =>
    obtain ⟨k, w⟩ := c
    have hk : k ≠ a := h (k, w) (by simp)
    by_cases hlt : a < k
    · simp [Memory.insertCell, hlt, Memory.read]
    · simp [Memory.insertCell, hlt, Memory.read, hk, ih fun c hc => h c (by simp [hc])]

theorem Memory.read_insertCell_other (m : Memory) (a b : Nat) (v : Byte) (hb : b ≠ a) :
    (Memory.insertCell a v m).read b = m.read b := by
  induction m with
  | nil => simp [Memory.insertCell, Memory.read, hb.symm]
  | cons c m ih =>
    obtain ⟨k, w⟩ := c
    by_cases hlt : a < k
    · simp [Memory.insertCell, hlt, Memory.read, hb.symm]
    · simp [Memory.insertCell, hlt, Memory.read, ih]

theorem Memory.read_filter_same (m : Memory) (a : Nat) :
    Memory.read (m.filter fun c => c.1 ≠ a) a = 0 := by
  induction m with
  | nil => rfl
  | cons c m ih =>
    obtain ⟨k, w⟩ := c
    by_cases hk : k = a
    · simpa [hk] using ih
    · simpa [hk, Memory.read] using ih

theorem Memory.read_filter_other (m : Memory) (a b : Nat) (hb : b ≠ a) :
    Memory.read (m.filter fun c => c.1 ≠ a) b = m.read b := by
  induction m with
  | nil => rfl
  | cons c m ih =>
    obtain ⟨k, w⟩ := c
    by_cases hk : k = a
    · subst hk; simpa [Memory.read, hb.symm] using ih
    · simpa [hk, Memory.read] using congrArg (fun x => if k = b then w else x) ih

/-- The one law later proofs use: a cell reads as what was last written to it, and every other cell as before. -/
@[simp] theorem Memory.read_write (m : Memory) (a b : Nat) (v : Byte) :
    (m.write a v).read b = if b = a then v else m.read b := by
  unfold Memory.write
  by_cases hv : v = 0
  · rw [if_pos hv]
    by_cases hb : b = a
    · rw [if_pos hb, hb, hv, Memory.read_filter_same]
    · rw [if_neg hb, Memory.read_filter_other m a b hb]
  · rw [if_neg hv]
    by_cases hb : b = a
    · rw [if_pos hb, hb, Memory.read_insertCell_same _ a v (by simp)]
    · rw [if_neg hb, Memory.read_insertCell_other _ a b v hb, Memory.read_filter_other m a b hb]

@[simp] theorem Memory.read_nil (a : Nat) : Memory.read [] a = 0 := rfl

theorem Memory.mem_insertCell (m : Memory) (a : Nat) (v : Byte) (c : Host.Cell) :
    c ∈ Memory.insertCell a v m ↔ c = (a, v) ∨ c ∈ m := by
  induction m with
  | nil => simp [Memory.insertCell]
  | cons d m ih =>
    obtain ⟨k, w⟩ := d
    by_cases hlt : a < k
    · simp [Memory.insertCell, hlt]
    · simp only [Memory.insertCell, hlt, if_false, List.mem_cons, ih]; tauto

theorem Memory.wf_filter (m : Memory) (a : Nat) (h : m.wf) : Memory.wf (m.filter fun c => c.1 ≠ a) :=
  ⟨h.1.filter _, fun c hc => h.2 c (List.mem_of_mem_filter hc)⟩

theorem Memory.wf_insertCell (m : Memory) (a : Nat) (v : Byte) (h : m.wf) (ha : a < memSize) (hv : v ≠ 0)
    (hne : ∀ c ∈ m, c.1 ≠ a) : (Memory.insertCell a v m).wf := by
  refine ⟨?_, fun c hc => ?_⟩
  · obtain ⟨hp, -⟩ := h
    induction m with
    | nil => simp [Memory.insertCell]
    | cons d m ih =>
      obtain ⟨k, w⟩ := d
      obtain ⟨hd, hp⟩ := List.pairwise_cons.1 hp
      have hka : k ≠ a := hne (k, w) (by simp)
      by_cases hlt : a < k
      · simp only [Memory.insertCell, hlt, if_true, List.pairwise_cons]
        refine ⟨fun c hc => ?_, hd, hp⟩
        rcases List.mem_cons.1 hc with rfl | hc
        · exact hlt
        · exact lt_trans hlt (hd c hc)
      · simp only [Memory.insertCell, hlt, if_false, List.pairwise_cons]
        refine ⟨fun c hc => ?_, ih (fun c hc => hne c (by simp [hc])) hp⟩
        rcases (Memory.mem_insertCell m a v c).1 hc with rfl | hc
        · change k < a; omega
        · exact hd c hc
  · rcases (Memory.mem_insertCell m a v c).1 hc with rfl | hc
    · exact ⟨ha, hv⟩
    · exact h.2 c hc

/-- A write to a cell of the machine keeps the canonical form. -/
theorem Memory.wf_write (m : Memory) (a : Nat) (v : Byte) (h : m.wf) (ha : a < memSize) : (m.write a v).wf := by
  unfold Memory.write
  split
  · exact Memory.wf_filter m a h
  · exact Memory.wf_insertCell _ a v (Memory.wf_filter m a h) ha ‹_› (by simp)

theorem Memory.wf_nil : Memory.wf [] := by simp [Memory.wf]

/-- The load keeps the canonical form. -/
theorem Memory.wf_storeBytes (bytes : List Byte) (m : Memory) (a : Nat) (h : m.wf) : (storeBytes m a bytes).wf := by
  induction bytes generalizing m a with
  | nil => exact h
  | cons b bs ih =>
    unfold storeBytes
    refine ih _ _ ?_
    split
    · exact Memory.wf_write m a b h ‹_›
    · exact h

/-- What storing a byte sequence leaves at each cell of the machine. -/
theorem Memory.read_storeBytes (bytes : List Byte) (m : Memory) (a b : Nat) (hb : b < memSize) :
    (storeBytes m a bytes).read b = if h : a ≤ b ∧ b - a < bytes.length then bytes[b - a] else m.read b := by
  induction bytes generalizing m a with
  | nil => simp [storeBytes]
  | cons v vs ih =>
    rw [storeBytes, ih]
    by_cases hba : b = a
    · subst hba
      simp [hb]
    · by_cases hlt : a ≤ b
      · have h1 : b - a = (b - (a + 1)) + 1 := by omega
        by_cases hlen : b - (a + 1) < vs.length
        · have : a + 1 ≤ b := by omega
          simp only [h1, List.getElem_cons_succ]
          simp [this, hlen, hlt]
        · have hm : (if a < memSize then m.write a v else m).read b = m.read b := by
            split <;> simp [hba]
          simp [hlen, hm, h1]
      · have hm : (if a < memSize then m.write a v else m).read b = m.read b := by
          split <;> simp [hba]
        have : ¬ a + 1 ≤ b := by omega
        simp [hlt, hm, this]

end Sys2Proof.Machine
end

