-- ==== Sys2Proof/Laws/State.lean ====
section
/-! SUPPORT. What each update of the state does to each field, true by unfolding the update once, so that no later proof
unfolds a record update. -/

namespace Sys2Proof.Machine

/-! ### setReg -/

@[simp] theorem State.mem_setReg (s : State) (r : Reg) (v : Byte) : (s.setReg r v).mem = s.mem := rfl
@[simp] theorem State.flags_setReg (s : State) (r : Reg) (v : Byte) : (s.setReg r v).flags = s.flags := rfl
@[simp] theorem State.run_setReg (s : State) (r : Reg) (v : Byte) : (s.setReg r v).run = s.run := rfl
@[simp] theorem State.out_setReg (s : State) (r : Reg) (v : Byte) : (s.setReg r v).out = s.out := rfl
@[simp] theorem State.config_setReg (s : State) (r : Reg) (v : Byte) : (s.setReg r v).config = s.config := rfl
@[simp] theorem State.pc_setReg (s : State) (r : Reg) (v : Byte) : (s.setReg r v).pc = s.pc := rfl

/-- A register reads as the value last written to it, and every other one as before. -/
@[simp] theorem State.reg_setReg (s : State) (r : Reg) (v : Byte) (q : Reg) :
    (s.setReg r v).reg q = if q = r then v else s.reg q := by
  simp only [State.reg, State.setReg, Vector.getElem_set, Fin.ext_iff, eq_comm]

theorem State.sp_eq_reg (s : State) : s.sp = s.reg spReg := rfl

@[simp] theorem State.sp_setReg_sp (s : State) (v : Byte) : (s.setReg spReg v).sp = v := by
  simp [State.sp_eq_reg]

/-! ### advance -/

@[simp] theorem State.mem_advance (s : State) (n : Nat) : (s.advance n).mem = s.mem := rfl
@[simp] theorem State.flags_advance (s : State) (n : Nat) : (s.advance n).flags = s.flags := rfl
@[simp] theorem State.run_advance (s : State) (n : Nat) : (s.advance n).run = s.run := rfl
@[simp] theorem State.out_advance (s : State) (n : Nat) : (s.advance n).out = s.out := rfl
@[simp] theorem State.config_advance (s : State) (n : Nat) : (s.advance n).config = s.config := rfl
@[simp] theorem State.pc_advance (s : State) (n : Nat) : (s.advance n).pc = s.pc + 1 + n := rfl
@[simp] theorem State.reg_advance (s : State) (n : Nat) (q : Reg) : (s.advance n).reg q = s.reg q := rfl
@[simp] theorem State.sp_advance (s : State) (n : Nat) : (s.advance n).sp = s.sp := rfl

/-! ### jump -/

@[simp] theorem State.mem_jump (s : State) (v : Byte) : (s.jump v).mem = s.mem := rfl
@[simp] theorem State.flags_jump (s : State) (v : Byte) : (s.jump v).flags = s.flags := rfl
@[simp] theorem State.run_jump (s : State) (v : Byte) : (s.jump v).run = s.run := rfl
@[simp] theorem State.out_jump (s : State) (v : Byte) : (s.jump v).out = s.out := rfl
@[simp] theorem State.config_jump (s : State) (v : Byte) : (s.jump v).config = s.config := rfl
@[simp] theorem State.pc_jump (s : State) (v : Byte) : (s.jump v).pc = v.toNat := rfl
@[simp] theorem State.reg_jump (s : State) (v : Byte) (q : Reg) : (s.jump v).reg q = s.reg q := rfl
@[simp] theorem State.sp_jump (s : State) (v : Byte) : (s.jump v).sp = s.sp := rfl

/-! ### emit -/

@[simp] theorem State.mem_emit (s : State) (v : Byte) : (s.emit v).mem = s.mem := rfl
@[simp] theorem State.flags_emit (s : State) (v : Byte) : (s.emit v).flags = s.flags := rfl
@[simp] theorem State.run_emit (s : State) (v : Byte) : (s.emit v).run = s.run := rfl
@[simp] theorem State.out_emit (s : State) (v : Byte) : (s.emit v).out = s.out ++ [v] := rfl
@[simp] theorem State.config_emit (s : State) (v : Byte) : (s.emit v).config = s.config := rfl
@[simp] theorem State.pc_emit (s : State) (v : Byte) : (s.emit v).pc = s.pc := rfl
@[simp] theorem State.reg_emit (s : State) (v : Byte) (q : Reg) : (s.emit v).reg q = s.reg q := rfl
@[simp] theorem State.sp_emit (s : State) (v : Byte) : (s.emit v).sp = s.sp := rfl

/-! ### raise -/

@[simp] theorem State.mem_raise (s : State) (k : FaultKind) : (s.raise k).mem = s.mem := rfl
@[simp] theorem State.flags_raise (s : State) (k : FaultKind) : (s.raise k).flags = s.flags := rfl
@[simp] theorem State.run_raise (s : State) (k : FaultKind) : (s.raise k).run = .faulted k := rfl
@[simp] theorem State.out_raise (s : State) (k : FaultKind) : (s.raise k).out = s.out := rfl
@[simp] theorem State.config_raise (s : State) (k : FaultKind) : (s.raise k).config = s.config := rfl
@[simp] theorem State.pc_raise (s : State) (k : FaultKind) : (s.raise k).pc = s.pc := rfl
@[simp] theorem State.reg_raise (s : State) (k : FaultKind) (q : Reg) : (s.raise k).reg q = s.reg q := rfl
@[simp] theorem State.sp_raise (s : State) (k : FaultKind) : (s.raise k).sp = s.sp := rfl

/-! ### halt -/

@[simp] theorem State.mem_halt (s : State) : (s.halt).mem = s.mem := rfl
@[simp] theorem State.flags_halt (s : State) : (s.halt).flags = s.flags := rfl
@[simp] theorem State.run_halt (s : State) : (s.halt).run = .halted := rfl
@[simp] theorem State.out_halt (s : State) : (s.halt).out = s.out := rfl
@[simp] theorem State.config_halt (s : State) : (s.halt).config = s.config := rfl
@[simp] theorem State.pc_halt (s : State) : (s.halt).pc = s.pc := rfl
@[simp] theorem State.reg_halt (s : State) (q : Reg) : (s.halt).reg q = s.reg q := rfl
@[simp] theorem State.sp_halt (s : State) : (s.halt).sp = s.sp := rfl

/-! ### Record updates that change no register -/

@[simp] theorem State.reg_with_mem (s : State) (x : Memory) (q : Reg) : State.reg { s with mem := x } q = s.reg q := rfl
@[simp] theorem State.sp_with_mem (s : State) (x : Memory) : State.sp { s with mem := x } = s.sp := rfl
@[simp] theorem State.reg_with_pc (s : State) (x : Nat) (q : Reg) : State.reg { s with pc := x } q = s.reg q := rfl
@[simp] theorem State.sp_with_pc (s : State) (x : Nat) : State.sp { s with pc := x } = s.sp := rfl
@[simp] theorem State.reg_with_flags (s : State) (x : Flags) (q : Reg) : State.reg { s with flags := x } q = s.reg q := rfl
@[simp] theorem State.sp_with_flags (s : State) (x : Flags) : State.sp { s with flags := x } = s.sp := rfl
@[simp] theorem State.reg_with_run (s : State) (x : RunState) (q : Reg) : State.reg { s with run := x } q = s.reg q := rfl
@[simp] theorem State.sp_with_run (s : State) (x : RunState) : State.sp { s with run := x } = s.sp := rfl
@[simp] theorem State.reg_with_out (s : State) (x : List Byte) (q : Reg) : State.reg { s with out := x } q = s.reg q := rfl
@[simp] theorem State.sp_with_out (s : State) (x : List Byte) : State.sp { s with out := x } = s.sp := rfl
@[simp] theorem State.reg_with_config (s : State) (x : Config) (q : Reg) : State.reg { s with config := x } q = s.reg q := rfl
@[simp] theorem State.sp_with_config (s : State) (x : Config) : State.sp { s with config := x } = s.sp := rfl

/-! ### Reset -/

@[simp] theorem State.mem_resetWith (top : Byte) (o : OpcodeMap) : (State.resetWith top o).mem = [] := rfl
@[simp] theorem State.pc_resetWith (top : Byte) (o : OpcodeMap) : (State.resetWith top o).pc = 0 := rfl
@[simp] theorem State.run_resetWith (top : Byte) (o : OpcodeMap) : (State.resetWith top o).run = .running := rfl
@[simp] theorem State.out_resetWith (top : Byte) (o : OpcodeMap) : (State.resetWith top o).out = [] := rfl
@[simp] theorem State.sp_resetWith (top : Byte) (o : OpcodeMap) : (State.resetWith top o).sp = top := rfl
@[simp] theorem State.config_resetWith (top : Byte) (o : OpcodeMap) :
    (State.resetWith top o).config = { stackTop := top, progLen := 0, opc := o } := rfl

/-! ### The end of an instruction -/

@[simp] theorem State.commit_ok (s t : State) : s.commit (.ok t) = .next t := rfl
@[simp] theorem State.commit_error (s : State) (k : FaultKind) : s.commit (.error k) = .next (s.raise k) := rfl

/-- All that the end of an instruction can do: the result becomes the next state, or the fault is taken from the state the
instruction started in. -/
theorem State.commit_cases (s t : State) (x : Except FaultKind State) (h : s.commit x = .next t) :
    x = .ok t ∨ ∃ k, x = .error k ∧ t = s.raise k := by
  cases x with
  | ok u => left; simpa using h
  | error k => right; exact ⟨k, rfl, by simpa using h.symm⟩

end Sys2Proof.Machine
end

