-- ==== Sys2Proof/Laws/Ops.lean ====
section
/-! SUPPORT. One lemma for each shared operation that says once everything it can do; later proofs cite these instead of
unfolding the operation. -/

namespace Sys2Proof.Machine

/-! ### The access primitives -/

theorem memRead_of_mem (a : Nat) (s : State) (h : a < memSize) : memRead a s = .ok (s.mem.read a) := by
  rw [memRead, if_neg (by simp only [memSize] at h; omega), Int.toNat_natCast]

theorem memRead_of_not_mem (a : Nat) (s : State) (h : memSize ≤ a) : memRead a s = .error .addressOutOfRange := by
  rw [memRead, if_pos (by simp only [memSize] at h; omega)]

theorem memWrite_of_mem (a : Nat) (v : Byte) (s : State) (h : a < memSize) :
    memWrite a v s = .ok { s with mem := s.mem.write a v } := by
  rw [memWrite, if_neg (by simp only [memSize] at h; omega), Int.toNat_natCast]

/-! ### Push -/

theorem inStackRegion_iff (s : State) (a : Int) :
    s.inStackRegion a = true ↔ (s.config.progLen : Int) ≤ a ∧ a ≤ (s.config.stackTop.toNat : Int) - 1 := by
  simp [State.inStackRegion]

/-- The state a push that is not refused leaves: `v` at SP - 1, and SP one lower. -/
def pushed (v : Byte) (s : State) : State :=
  { s.setReg spReg (s.sp - 1) with mem := s.mem.write (s.sp.toNat - 1) v }

/-- All that push can do (R110). -/
theorem push_eq (v : Byte) (s : State) :
    push v s = if s.inStackRegion (pushAddress s) then .ok (pushed v s) else .error .stackOverflow := by
  have hsp := s.sp.isLt
  by_cases h : s.inStackRegion (pushAddress s) = true
  · rw [if_pos h]
    rw [inStackRegion_iff] at h
    obtain ⟨h1, h2⟩ := h
    have ha : pushAddress s = ((s.sp.toNat - 1 : Nat) : Int) := by simp only [pushAddress] at h1 ⊢; omega
    have hb : BitVec.ofInt 8 (pushAddress s) = s.sp - 1 := by
      apply BitVec.eq_of_toNat_eq
      simp only [pushAddress] at h1
      rw [ha, BitVec.ofInt_natCast, BitVec.toNat_ofNat, BitVec.toNat_sub,
        show (1 : Byte).toNat = 1 from rfl]
      omega
    rw [push, if_neg (by omega), hb, ha, memWrite_of_mem _ _ _ (by simp only [memSize]; omega)]
    rfl
  · rw [if_neg h, push, if_pos (by rw [inStackRegion_iff] at h; omega)]

@[simp] theorem pc_pushed (v : Byte) (s : State) : (pushed v s).pc = s.pc := rfl
@[simp] theorem flags_pushed (v : Byte) (s : State) : (pushed v s).flags = s.flags := rfl
@[simp] theorem run_pushed (v : Byte) (s : State) : (pushed v s).run = s.run := rfl
@[simp] theorem out_pushed (v : Byte) (s : State) : (pushed v s).out = s.out := rfl
@[simp] theorem config_pushed (v : Byte) (s : State) : (pushed v s).config = s.config := rfl
@[simp] theorem mem_pushed (v : Byte) (s : State) : (pushed v s).mem = s.mem.write (s.sp.toNat - 1) v := rfl

@[simp] theorem reg_pushed (v : Byte) (s : State) (q : Reg) :
    (pushed v s).reg q = if q = spReg then s.sp - 1 else s.reg q :=
  State.reg_setReg s spReg (s.sp - 1) q

@[simp] theorem sp_pushed (v : Byte) (s : State) : (pushed v s).sp = s.sp - 1 := by
  simp [State.sp_eq_reg (pushed v s)]

/-! ### Pop -/

/-- The state a pop that is not refused leaves: the cell at SP cleared, and SP one higher. -/
def popped (s : State) : State :=
  { s.setReg spReg (s.sp + 1) with mem := s.mem.write s.sp.toNat 0 }

/-- All that pop can do (R111). -/
theorem pop_eq (s : State) :
    pop s =
      if s.sp = s.config.stackTop then .error .stackUnderflow
      else if s.sp.toNat = 255 then .error .addressOutOfRange
      else .ok (s.mem.read s.sp.toNat, popped s) := by
  have hsp := s.sp.isLt
  unfold pop
  split
  · rfl
  · split
    · rfl
    · rw [memRead_of_mem _ _ (by simp only [memSize]; omega), memWrite_of_mem _ _ _ (by simp only [memSize]; omega)]
      have hb : BitVec.ofNat 8 (s.sp.toNat + 1) = s.sp + 1 := by
        apply BitVec.eq_of_toNat_eq
        rw [BitVec.toNat_ofNat, BitVec.toNat_add, show (1 : Byte).toNat = 1 from rfl]
      simp only [bind, Except.bind, pure, Except.pure, hb]
      rfl

@[simp] theorem pc_popped (s : State) : (popped s).pc = s.pc := rfl
@[simp] theorem flags_popped (s : State) : (popped s).flags = s.flags := rfl
@[simp] theorem run_popped (s : State) : (popped s).run = s.run := rfl
@[simp] theorem out_popped (s : State) : (popped s).out = s.out := rfl
@[simp] theorem config_popped (s : State) : (popped s).config = s.config := rfl
@[simp] theorem mem_popped (s : State) : (popped s).mem = s.mem.write s.sp.toNat 0 := rfl

@[simp] theorem reg_popped (s : State) (q : Reg) :
    (popped s).reg q = if q = spReg then s.sp + 1 else s.reg q :=
  State.reg_setReg s spReg (s.sp + 1) q

@[simp] theorem sp_popped (s : State) : (popped s).sp = s.sp + 1 := by
  simp [State.sp_eq_reg (popped s)]

/-! ### CALL's return address -/

theorem returnAddress_eq (s : State) :
    returnAddress s = if s.pc ≤ 253 then .ok (BitVec.ofNat 8 (s.pc + 2)) else .error .addressOutOfRange := by
  unfold returnAddress
  by_cases h : s.pc ≤ 253
  · simp [h, show ¬ s.pc + 2 > 255 by omega]
  · simp [h, show s.pc + 2 > 255 by omega]

/-! ### Fetch -/

/-- The bytes the decoder sees, by how many of the three addresses exist. -/
theorem fetchWindow_eq (s : State) :
    fetchWindow s =
      if s.pc ≤ 253 then [s.mem.read s.pc, s.mem.read (s.pc + 1), s.mem.read (s.pc + 2)]
      else if s.pc = 254 then [s.mem.read s.pc, s.mem.read (s.pc + 1)]
      else if s.pc = 255 then [s.mem.read s.pc]
      else [] := by
  have hk (k : Nat) : (memRead (s.pc + k : Nat) s).toOption =
      if s.pc + k ≤ 255 then some (s.mem.read (s.pc + k)) else none := by
    by_cases h : s.pc + k ≤ 255
    · rw [memRead_of_mem _ _ (by simp only [memSize]; omega), if_pos h]; rfl
    · rw [memRead_of_not_mem _ _ (by simp only [memSize]; omega), if_neg h]; rfl
  simp only [fetchWindow, hk, show List.range maxLength = [0, 1, 2] from rfl]
  by_cases h0 : s.pc ≤ 253
  · simp [h0, show s.pc ≤ 255 by omega, show s.pc + 1 ≤ 255 by omega, show s.pc + 2 ≤ 255 by omega]
  · by_cases h1 : s.pc = 254
    · simp [h1]
    · by_cases h2 : s.pc = 255
      · simp [h2]
      · simp [h0, h1, h2, show ¬ s.pc ≤ 255 by omega, show ¬ s.pc + 1 ≤ 255 by omega, show ¬ s.pc + 2 ≤ 255 by omega]

end Sys2Proof.Machine
end

