-- ==== Sys2Proof/Laws/Exec.lean ====
section
/-! SUPPORT. The meaning of each instruction on legal operand bytes, as one equation over the shared operations; later
proofs cite these instead of unfolding a meaning. What each field of the result holds follows by the lemmas of
Laws/State.lean and Laws/Ops.lean. -/

namespace Sys2Proof.Machine

theorem exec_ldi (r : Reg) (imm : Byte) (s : State) :
    exec (.ldi r.byte imm) s = .next ((s.setReg r imm).advance 2) := by
  simp [exec, execLdi, bind, Except.bind, pure, Except.pure]

theorem exec_prn (r : Reg) (s : State) : exec (.prn r.byte) s = .next ((s.emit (s.reg r)).advance 1) := by
  simp [exec, execPrn, bind, Except.bind, pure, Except.pure]

theorem alu_add (a b : Byte) : alu .add a b = .ok (a + b) := by
  simp only [alu, Except.ok.injEq]
  apply BitVec.eq_of_toNat_eq
  simp [BitVec.toNat_add]

theorem alu_multiply (a b : Byte) : alu .multiply a b = .ok (a * b) := by
  simp only [alu, Except.ok.injEq]
  apply BitVec.eq_of_toNat_eq
  simp [BitVec.toNat_mul]

theorem exec_add (ra rb : Reg) (s : State) :
    exec (.add ra.byte rb.byte) s = .next ((s.setReg ra (s.reg ra + s.reg rb)).advance 2) := by
  simp [exec, execAdd, aluInstr, alu_add, bind, Except.bind, pure, Except.pure]

theorem exec_mul (ra rb : Reg) (s : State) :
    exec (.mul ra.byte rb.byte) s = .next ((s.setReg ra (s.reg ra * s.reg rb)).advance 2) := by
  simp [exec, execMul, aluInstr, alu_multiply, bind, Except.bind, pure, Except.pure]

theorem exec_push (r : Reg) (s : State) :
    exec (.push r.byte) s =
      .next (if s.inStackRegion (pushAddress s) then (pushed (s.reg r) s).advance 1 else s.raise .stackOverflow) := by
  simp only [exec, execPush, regOperand_byte, push_eq]
  split <;> simp [bind, Except.bind, pure, Except.pure]

theorem exec_pop (r : Reg) (s : State) :
    exec (.pop r.byte) s =
      .next (if s.sp = s.config.stackTop then s.raise .stackUnderflow
        else if s.sp.toNat = 255 then s.raise .addressOutOfRange
        else ((popped s).setReg r (s.mem.read s.sp.toNat)).advance 1) := by
  simp only [exec, execPop, regOperand_byte, pop_eq]
  split
  · simp [bind, Except.bind]
  · split <;> simp [bind, Except.bind, pure, Except.pure]

theorem exec_call (r : Reg) (s : State) :
    exec (.call r.byte) s =
      .next (if 253 < s.pc then s.raise .addressOutOfRange
        else if s.inStackRegion (pushAddress s) then (pushed (BitVec.ofNat 8 (s.pc + 2)) s).jump (s.reg r)
        else s.raise .stackOverflow) := by
  simp only [exec, execCall, regOperand_byte, push_eq, returnAddress_eq]
  by_cases hp : s.pc ≤ 253
  · by_cases hr : s.inStackRegion (pushAddress s) = true <;>
      simp [hp, show ¬ 253 < s.pc by omega, hr, bind, Except.bind, pure, Except.pure]
  · simp [hp, show 253 < s.pc by omega, bind, Except.bind]

theorem exec_ret (s : State) :
    exec .ret s =
      .next (if s.sp = s.config.stackTop then s.raise .stackUnderflow
        else if s.sp.toNat = 255 then s.raise .addressOutOfRange
        else (popped s).jump (s.mem.read s.sp.toNat)) := by
  simp only [exec, execRet, pop_eq]
  split
  · simp [bind, Except.bind]
  · split <;> simp [bind, Except.bind, pure, Except.pure]

theorem exec_cmp (ra rb : Reg) (s : State) :
    exec (.cmp ra.byte rb.byte) s = .next ({ s with flags := Flags.compare (s.reg ra) (s.reg rb) }.advance 2) := by
  simp [exec, execCmp, bind, Except.bind, pure, Except.pure]

theorem exec_jmp (r : Reg) (s : State) : exec (.jmp r.byte) s = .next (s.jump (s.reg r)) := by
  simp [exec, execJmp, bind, Except.bind, pure, Except.pure]

theorem exec_jeq (r : Reg) (s : State) :
    exec (.jeq r.byte) s = .next (if s.flags.e = true then s.jump (s.reg r) else s.advance 1) := by
  by_cases h : s.flags.e = true <;> simp [exec, execJeq, Flags.isSet, h, bind, Except.bind, pure, Except.pure]

theorem exec_jne (r : Reg) (s : State) :
    exec (.jne r.byte) s = .next (if s.flags.e = true then s.advance 1 else s.jump (s.reg r)) := by
  by_cases h : s.flags.e = true <;> simp [exec, execJne, Flags.isSet, h, bind, Except.bind, pure, Except.pure]

theorem exec_hlt (s : State) : exec .hlt s = .next s.halt := rfl

/-- A well-formed instruction is one of the thirteen rows on registers that exist: the case analysis proofs over all
instructions start from. -/
theorem wellFormed_cases {P : Instr → Prop} (i : Instr) (h : i.wellFormed = true)
    (ldi : ∀ (r : Reg) imm, P (.ldi r.byte imm)) (prn : ∀ r : Reg, P (.prn r.byte))
    (add : ∀ ra rb : Reg, P (.add ra.byte rb.byte)) (mul : ∀ ra rb : Reg, P (.mul ra.byte rb.byte))
    (push : ∀ r : Reg, P (.push r.byte)) (pop : ∀ r : Reg, P (.pop r.byte)) (call : ∀ r : Reg, P (.call r.byte))
    (ret : P .ret) (cmp : ∀ ra rb : Reg, P (.cmp ra.byte rb.byte)) (jmp : ∀ r : Reg, P (.jmp r.byte))
    (jeq : ∀ r : Reg, P (.jeq r.byte)) (jne : ∀ r : Reg, P (.jne r.byte)) (hlt : P .hlt) : P i := by
  have one {Q : Byte → Prop} (b : Byte) (hb : validReg b = true) (hQ : ∀ r : Reg, Q r.byte) : Q b := by
    obtain ⟨r, rfl⟩ := exists_reg_of_validReg b hb
    exact hQ r
  have two {Q : Byte → Byte → Prop} (a b : Byte) (hab : (validReg a && validReg b) = true)
      (hQ : ∀ ra rb : Reg, Q ra.byte rb.byte) : Q a b := by
    rw [Bool.and_eq_true] at hab
    exact one (Q := fun x => Q x b) a hab.1 fun ra => one (Q := Q ra.byte) b hab.2 (hQ ra)
  cases i with
  | ldi b imm => exact one (Q := fun b => P (.ldi b imm)) b h fun r => ldi r imm
  | prn b => exact one (Q := fun b => P (.prn b)) b h prn
  | add a b => exact two (Q := fun a b => P (.add a b)) a b h add
  | mul a b => exact two (Q := fun a b => P (.mul a b)) a b h mul
  | push b => exact one (Q := fun b => P (.push b)) b h push
  | pop b => exact one (Q := fun b => P (.pop b)) b h pop
  | call b => exact one (Q := fun b => P (.call b)) b h call
  | ret => exact ret
  | cmp a b => exact two (Q := fun a b => P (.cmp a b)) a b h cmp
  | jmp b => exact one (Q := fun b => P (.jmp b)) b h jmp
  | jeq b => exact one (Q := fun b => P (.jeq b)) b h jeq
  | jne b => exact one (Q := fun b => P (.jne b)) b h jne
  | hlt => exact hlt

end Sys2Proof.Machine
end

