-- ==== Sys2Proof/Laws/Fetch.lean ====
section
/-! SUPPORT. All that steps 1 to 3b of the cycle can do, as one equation over memory: later proofs cite it instead of
unfolding the fetch window and the decoder. -/

namespace Sys2Proof.Machine

/-- A fetch whose operands are all there. -/
theorem fetchInstr_of_take {s : State} {op b1 b2 : Byte} {tail rest : List Byte} {m : Mnemonic}
    (hw : fetchWindow s = op :: tail) (hm : s.config.opc.lookup op = some m)
    (ht : takeOperands m.format tail = some (b1, b2, rest)) {i : Instr} (hi : assemble m b1 b2 = i) :
    fetchInstr s = if i.wellFormed = true then .ok i else .error .invalidRegister := by
  cases h : i.wellFormed <;> simp [fetchInstr, hw, decode, hm, ht, hi, h, decodeFault]

/-- A fetch that runs past the last address. -/
theorem fetchInstr_of_short {s : State} {op : Byte} {tail : List Byte} {m : Mnemonic}
    (hw : fetchWindow s = op :: tail) (hm : s.config.opc.lookup op = some m) (ht : takeOperands m.format tail = none) :
    fetchInstr s = .error .addressOutOfRange := by
  simp [fetchInstr, hw, decode, hm, ht, decodeFault]

theorem fetchInstr_eq (s : State) :
    fetchInstr s =
      if 255 < s.pc then .error .addressOutOfRange
      else match s.config.opc.lookup (s.mem.read s.pc) with
        | none => .error .unknownOpcode
        | some m =>
          if 255 < s.pc + m.operandCount then .error .addressOutOfRange
          else if (assemble m (s.mem.read (s.pc + 1)) (s.mem.read (s.pc + 2))).wellFormed = true then
            .ok (assemble m (s.mem.read (s.pc + 1)) (s.mem.read (s.pc + 2)))
          else .error .invalidRegister := by
  have hwin := fetchWindow_eq s
  by_cases h : 255 < s.pc
  · rw [if_neg (by omega), if_neg (by omega), if_neg (by omega)] at hwin
    rw [if_pos h, fetchInstr, hwin]
    rfl
  · rw [if_neg h]
    have hcons : ∃ tail, fetchWindow s = s.mem.read s.pc :: tail := by
      rw [hwin]
      split
      · exact ⟨_, rfl⟩
      · split
        · exact ⟨_, rfl⟩
        · rw [if_pos (by omega)]
          exact ⟨_, rfl⟩
    cases hm : s.config.opc.lookup (s.mem.read s.pc) with
    | none =>
      obtain ⟨tail, ht⟩ := hcons
      simp [fetchInstr, ht, decode, hm, decodeFault]
    | some m =>
      have hcount : m.operandCount ≤ 2 := by cases m <;> decide
      simp only
      by_cases hn : 255 < s.pc + m.operandCount
      · rw [if_pos hn]
        by_cases h4 : s.pc = 254
        · rw [if_neg (by omega), if_pos h4] at hwin
          refine fetchInstr_of_short hwin hm ?_
          cases m <;> first | rfl | exact absurd hn (by rw [h4]; decide)
        · rw [if_neg (by omega), if_neg h4, if_pos (by omega)] at hwin
          have h5 : s.pc = 255 := by omega
          refine fetchInstr_of_short hwin hm ?_
          cases m <;> first | rfl | exact absurd hn (by rw [h5]; decide)
      · rw [if_neg hn]
        by_cases h3 : s.pc ≤ 253
        · rw [if_pos h3] at hwin
          cases m <;> exact fetchInstr_of_take hwin hm rfl rfl
        · rw [if_neg h3] at hwin
          by_cases h4 : s.pc = 254
          · rw [if_pos h4] at hwin
            cases m <;> first | exact fetchInstr_of_take hwin hm rfl rfl | exact absurd (by rw [h4]; decide) hn
          · rw [if_neg h4, if_pos (by omega)] at hwin
            have h5 : s.pc = 255 := by omega
            cases m <;> first | exact fetchInstr_of_take hwin hm rfl rfl | exact absurd (by rw [h5]; decide) hn

/-- All that a successful fetch says. -/
theorem fetchInstr_ok {s : State} {i : Instr} (h : fetchInstr s = .ok i) :
    i.wellFormed = true ∧ s.pc + i.mnemonic.operandCount ≤ 255 ∧
      s.config.opc.lookup (s.mem.read s.pc) = some i.mnemonic ∧
      i = assemble i.mnemonic (s.mem.read (s.pc + 1)) (s.mem.read (s.pc + 2)) := by
  rw [fetchInstr_eq] at h
  split at h
  · cases h
  · split at h
    · cases h
    · rename_i m hm
      split at h
      · cases h
      · split at h
        · cases h
          rw [mnemonic_assemble]
          exact ⟨‹_›, by omega, hm, rfl⟩
        · cases h

end Sys2Proof.Machine
end

