-- ==== Sys2Proof/Laws/Loader.lean ====
section
/-! SUPPORT. What the Loader does with one line (R60). -/

namespace Sys2Proof.Machine

/-- A text splits at its first line feed. -/
theorem splitLines_append (line rest : List Char) (h : '\n' ∉ line) :
    splitLines (line ++ '\n' :: rest) = line :: splitLines rest := by
  induction line with
  | nil => simp [splitLines]
  | cons c cs ih =>
    simp only [List.mem_cons, not_or] at h
    simp only [List.cons_append, splitLines, if_neg (Ne.symm h.1), ih h.2]

/-- The Loader takes the first line by itself. -/
theorem parseProgram_line (line rest : List Char) (h : '\n' ∉ line) :
    parseProgram (line ++ '\n' :: rest) = linesBytes (line :: splitLines rest) := by
  rw [parseProgram, splitLines_append line rest h]

/-- What stands from the first `#` on is discarded. -/
theorem lineToken_comment (before comment : List Char) (h : '#' ∉ before) :
    lineToken (before ++ '#' :: comment) = trimLine before := by
  rw [lineToken, List.takeWhile_append_of_pos]
  · simp
  · intro x hx; simp; rintro rfl; exact h hx

theorem lineToken_without_comment (line : List Char) (h : '#' ∉ line) : lineToken line = trimLine line := by
  rw [lineToken]; congr 1; rw [List.takeWhile_eq_self_iff]
  intro x hx; simp; rintro rfl; exact h hx

end Sys2Proof.Machine
end

