-- ==== Sys2Proof/Laws/PerInstr.lean ====
section
/-! SUPPORT. Facts about each instruction as syntax. -/

namespace Sys2Proof.Laws

/-- R50, R51: the encoding of an instruction, under any `OPC`, is its opcode byte followed by as many operand bytes as its
row has. -/
def Encoded.Statement (i : Instr) : Prop :=
  ∀ o : OpcodeMap, (encode o i).head? = some (o.byte i.mnemonic) ∧ (encode o i).length = i.length

theorem Encoded.ldi (reg imm : Byte) : Encoded.Statement (.ldi reg imm) := fun _ => ⟨rfl, rfl⟩
theorem Encoded.prn (reg : Byte) : Encoded.Statement (.prn reg) := fun _ => ⟨rfl, rfl⟩
theorem Encoded.add (regA regB : Byte) : Encoded.Statement (.add regA regB) := fun _ => ⟨rfl, rfl⟩
theorem Encoded.mul (regA regB : Byte) : Encoded.Statement (.mul regA regB) := fun _ => ⟨rfl, rfl⟩
theorem Encoded.push (reg : Byte) : Encoded.Statement (.push reg) := fun _ => ⟨rfl, rfl⟩
theorem Encoded.pop (reg : Byte) : Encoded.Statement (.pop reg) := fun _ => ⟨rfl, rfl⟩
theorem Encoded.call (reg : Byte) : Encoded.Statement (.call reg) := fun _ => ⟨rfl, rfl⟩
theorem Encoded.ret : Encoded.Statement .ret := fun _ => ⟨rfl, rfl⟩
theorem Encoded.cmp (regA regB : Byte) : Encoded.Statement (.cmp regA regB) := fun _ => ⟨rfl, rfl⟩
theorem Encoded.jmp (reg : Byte) : Encoded.Statement (.jmp reg) := fun _ => ⟨rfl, rfl⟩
theorem Encoded.jeq (reg : Byte) : Encoded.Statement (.jeq reg) := fun _ => ⟨rfl, rfl⟩
theorem Encoded.jne (reg : Byte) : Encoded.Statement (.jne reg) := fun _ => ⟨rfl, rfl⟩
theorem Encoded.hlt : Encoded.Statement .hlt := fun _ => ⟨rfl, rfl⟩

end Sys2Proof.Laws
end

