-- ==== Sys2Proof/Laws/Step.lean ====
section
/-! SUPPORT. What a step can do, said once. -/

namespace Sys2Proof.Machine

/-- All that a fetch can do: decode the bytes at `pc`, or end in the fault of the first check that fails. -/
theorem fetchInstr_cases (s : State) :
    (∃ i rest, decode s.config.opc (fetchWindow s) = .ok (i, rest) ∧ fetchInstr s = .ok i) ∨
      ∃ e, decode s.config.opc (fetchWindow s) = .error e ∧ fetchInstr s = .error (decodeFault e) := by
  unfold fetchInstr
  cases h : decode s.config.opc (fetchWindow s) with
  | ok p => exact .inl ⟨p.1, p.2, rfl, rfl⟩
  | error e => exact .inr ⟨e, rfl, rfl⟩

/-- Every step of the machine: it was running, and either executed the instruction it fetched, or took the fault the
fetch ended in. -/
theorem step_cases (s t : State) (h : step s = .next t) :
    s.run = .running ∧
      ((∃ i, fetchInstr s = .ok i ∧ exec i s = .next t) ∨ ∃ k, fetchInstr s = .error k ∧ t = s.raise k) := by
  unfold step at h
  split at h
  · rename_i hr
    refine ⟨hr, ?_⟩
    unfold cycle at h
    split at h
    · exact .inl ⟨_, ‹_›, h⟩
    · rename_i k hk
      exact .inr ⟨k, hk, by simpa using h.symm⟩
  · cases h
  · cases h

/-- A running machine performs a cycle. -/
theorem step_of_running (s : State) (h : s.run = .running) : step s = cycle s := by simp [step, h]

end Sys2Proof.Machine
end

