-- ==== Sys2Proof/Machine/Written.lean ====
section
/-! DEFINITION. The mnemonic form in which the spec writes an instruction for human readers (R61). Nothing reads it back:
the source has no assembler, and no step depends on this file. -/

namespace Sys2Proof.Machine

/-- R61: a register as `R` and its index. -/
def registerName (b : Byte) : String := "R" ++ Nat.repr b.toNat

/-- R61: a mnemonic followed by its operands, the destination first, an immediate as a decimal number. -/
def written : Instr → String
  | .ldi reg imm => "LDI " ++ registerName reg ++ "," ++ Nat.repr imm.toNat
  | .prn reg => "PRN " ++ registerName reg
  | .add regA regB => "ADD " ++ registerName regA ++ "," ++ registerName regB
  | .mul regA regB => "MUL " ++ registerName regA ++ "," ++ registerName regB
  | .push reg => "PUSH " ++ registerName reg
  | .pop reg => "POP " ++ registerName reg
  | .call reg => "CALL " ++ registerName reg
  | .ret => "RET"
  | .cmp regA regB => "CMP " ++ registerName regA ++ "," ++ registerName regB
  | .jmp reg => "JMP " ++ registerName reg
  | .jeq reg => "JEQ " ++ registerName reg
  | .jne reg => "JNE " ++ registerName reg
  | .hlt => "HLT"

end Sys2Proof.Machine
end

