-- ==== Sys2Proof/Tests/Slice0.lean ====
section
/-! SUPPORT. Tests. Expected values come from the spec: the encodings of 30_encoding.md (R51, R55) written out bit by bit,
and the vectors of 95_test_vectors.md, named by their ids. The witnesses show, for every obligation with hypotheses, a
concrete input that meets them together, clause by clause, at the boundary of its range where it has one. -/

namespace Sys2Proof.Tests

open Sys2Proof
open Sys2Proof.Machine

/-! ### WellFormed refuses -/

theorem test_wf_ldi_reg8_refused : (Instr.ldi 8 1).wellFormed = false := by decide
theorem test_wf_prn_reg8_refused : (Instr.prn 8).wellFormed = false := by decide
theorem test_wf_add_regA8_refused : (Instr.add 8 0).wellFormed = false := by decide
theorem test_wf_add_regB8_refused : (Instr.add 0 8).wellFormed = false := by decide
theorem test_wf_mul_regA8_refused : (Instr.mul 8 0).wellFormed = false := by decide
theorem test_wf_mul_regB255_refused : (Instr.mul 0 255).wellFormed = false := by decide
theorem test_wf_push_reg8_refused : (Instr.push 8).wellFormed = false := by decide
theorem test_wf_pop_reg128_refused : (Instr.pop 128).wellFormed = false := by decide
theorem test_wf_call_reg8_refused : (Instr.call 8).wellFormed = false := by decide
theorem test_wf_cmp_regA8_refused : (Instr.cmp 8 0).wellFormed = false := by decide
theorem test_wf_cmp_regB8_refused : (Instr.cmp 0 8).wellFormed = false := by decide
theorem test_wf_jmp_reg8_refused : (Instr.jmp 8).wellFormed = false := by decide
theorem test_wf_jeq_reg9_refused : (Instr.jeq 9).wellFormed = false := by decide
theorem test_wf_jne_reg8_refused : (Instr.jne 8).wellFormed = false := by decide
theorem test_wf_ldi_any_immediate : ∀ imm : Byte, (Instr.ldi 7 imm).wellFormed = true := by decide

/-! ### Decoding: one word per constructor, written from R51 and R55; the first byte is the low one -/

theorem test_decode_ldi : decodeTableWord 24 0b00001000_00000000_10000010 = some (.ldi 0 8) := by decide
theorem test_decode_prn : decodeTableWord 16 0b00000111_01000111 = some (.prn 7) := by decide
theorem test_decode_add : decodeTableWord 24 0b00000001_00000111_10100000 = some (.add 7 1) := by decide
theorem test_decode_mul : decodeTableWord 24 0b00000110_00000011_10100010 = some (.mul 3 6) := by decide
theorem test_decode_push : decodeTableWord 16 0b00000101_01000101 = some (.push 5) := by decide
theorem test_decode_pop : decodeTableWord 16 0b00000100_01000110 = some (.pop 4) := by decide
theorem test_decode_call : decodeTableWord 16 0b00000001_01010000 = some (.call 1) := by decide
theorem test_decode_ret : decodeTableWord 8 0b00010001 = some .ret := by decide
theorem test_decode_cmp : decodeTableWord 24 0b00000010_00000000_10100111 = some (.cmp 0 2) := by decide
theorem test_decode_jmp : decodeTableWord 16 0b00000010_01010100 = some (.jmp 2) := by decide
theorem test_decode_jeq : decodeTableWord 16 0b00000010_01010101 = some (.jeq 2) := by decide
theorem test_decode_jne : decodeTableWord 16 0b00000011_01010110 = some (.jne 3) := by decide
theorem test_decode_hlt : decodeTableWord 8 0b00000001 = some .hlt := by decide

/-- Part 4: register byte 8 beside 7. -/
theorem test_decode_refuses_register8 :
    decode OpcodeMap.default [0x47, 0x08] = .error .invalidRegister ∧
    decode OpcodeMap.default [0x47, 0x07] = .ok (.prn 7, []) := by decide

/-- Part 4, F1, F4: 0x00 and 0x48 are no opcodes. -/
theorem test_decode_refuses_unknown :
    decode OpcodeMap.default [0x00] = .error .unknownOpcode ∧
    decode OpcodeMap.default [0x48, 0x00] = .error .unknownOpcode := by decide

/-- T5: a missing second operand is found before the first is validated. -/
theorem test_decode_missing_operand_first :
    decode OpcodeMap.default [0xA0, 0x09] = .error .missingOperand := by decide

/-- R55: the default opcode bytes are pairwise different. -/
theorem test_default_opcodes_injective : OpcodeMap.default.Injective := by decide

/-! ### A state for one step -/

/-- The machine booted with a program under the default parameters. -/
def booted (bytes : List Byte) : State := (boot defaultStackTop OpcodeMap.default bytes).getD State.reset

/-- Registers set over a state. -/
def withRegs (l : List (Reg × Byte)) (s : State) : State := l.foldl (fun t p => t.setReg p.1 p.2) s

/-- The state is the next one and holds `p`. -/
def nextHas (o : Host.Outcome State Fault Refusal) (p : State → Bool) : Bool :=
  match o with
  | .next t => p t
  | .fault _ => false
  | .refused _ => false

/-- J1 to J11: an instruction at 10, `x[2]` = 40, and flags. -/
def atTen (op reg : Byte) (f : Flags) : State :=
  { withRegs [(2, 40)] (booted [0, 0, 0, 0, 0, 0, 0, 0, 0, 0, op, reg]) with pc := 10, flags := f }

/-- K4, H2, T1 to T8: a loaded 256-byte image that is 0 but for the bytes at `a`, with `pc` there. -/
def atTop (a : Nat) (bytes : List Byte) : State :=
  { State.reset with
    mem := storeBytes [] a bytes, pc := a, config := { State.reset.config with progLen := 256 } }

/-! ### One step of each instruction -/

/-- L4 -/
theorem test_ldi_L4 : nextHas (step (booted [0x82, 0x07, 0x10]))
    fun t => t.sp == 16 && t.pc == 3 && t.run == .running && t.flags == State.reset.flags := by decide

/-- L5 -/
theorem test_ldi_L5 : nextHas (step (booted [0x82, 0x08, 0x01]))
    fun t => t == { booted [0x82, 0x08, 0x01] with run := .faulted .invalidRegister } := by decide

/-- L8 -/
theorem test_prn_L8 : nextHas (step (withRegs [(1, 255)] (booted [0x47, 0x01])))
    fun t => t.out == [255] && t.pc == 2 && t.outputLines == ["255"] := by decide

/-- L10 -/
theorem test_prn_L10 : nextHas (step (booted [0x47, 0x08]))
    fun t => t.out == [] && t.pc == 0 && t.run == .faulted .invalidRegister := by decide

/-- A12 -/
theorem test_add_A12 :
    nextHas (step { withRegs [(0, 255), (1, 1)] (booted [0xA0, 0x00, 0x01]) with flags := ⟨false, false, true⟩ })
    fun t => t.reg 0 == 0 && t.reg 1 == 1 && t.flags == ⟨false, false, true⟩ && t.pc == 3 := by decide

/-- A10 -/
theorem test_add_A10 : nextHas (step (withRegs [(1, 12)] (booted [0xA0, 0x07, 0x01])))
    fun t => t.sp == 0 && t.pc == 3 && t.run == .running := by decide

/-- M6 -/
theorem test_mul_M6 : nextHas (step (withRegs [(0, 200), (1, 3)] (booted [0xA2, 0x00, 0x01])))
    fun t => t.reg 0 == 88 && t.reg 1 == 3 && t.pc == 3 := by decide

/-- M10 -/
theorem test_mul_M10 : nextHas (step (withRegs [(0, 15)] (booted [0xA2, 0x00, 0x00])))
    fun t => t.reg 0 == 225 := by decide

/-- C6 -/
theorem test_cmp_C6 : nextHas (step (withRegs [(0, 128), (1, 127)] (booted [0xA7, 0x00, 0x01])))
    fun t => t.flags == ⟨false, true, false⟩ && t.pc == 3 && t.reg 0 == 128 := by decide

/-- C1, after flags that were set otherwise. -/
theorem test_cmp_C1 :
    nextHas (step { withRegs [(0, 3), (1, 5)] (booted [0xA7, 0x00, 0x01]) with flags := ⟨false, false, true⟩ })
    fun t => t.flags == ⟨true, false, false⟩ := by decide

/-- J1 -/
theorem test_jmp_J1 : nextHas (step (atTen 0x54 0x02 ⟨false, false, false⟩)) fun t => t.pc == 40 := by decide

/-- J3, J4, J6 -/
theorem test_jeq_J3_J4_J6 :
    nextHas (step (atTen 0x55 0x02 ⟨false, false, true⟩)) (fun t => t.pc == 40) ∧
    nextHas (step (atTen 0x55 0x02 ⟨true, false, false⟩)) (fun t => t.pc == 12) ∧
    nextHas (step (atTen 0x55 0x02 ⟨false, false, false⟩)) (fun t => t.pc == 12) := by decide

/-- J11 -/
theorem test_jeq_J11 : nextHas (step (atTen 0x55 0x09 ⟨true, false, false⟩))
    fun t => t.run == .faulted .invalidRegister && t.pc == 10 := by decide

/-- J7, J8, J10 -/
theorem test_jne_J7_J8_J10 :
    nextHas (step (atTen 0x56 0x02 ⟨false, false, true⟩)) (fun t => t.pc == 12) ∧
    nextHas (step (atTen 0x56 0x02 ⟨true, false, false⟩)) (fun t => t.pc == 40) ∧
    nextHas (step (atTen 0x56 0x02 ⟨false, false, false⟩)) (fun t => t.pc == 40) := by decide

/-- S2 -/
theorem test_push_S2 : nextHas (step (booted [0x45, 0x07, 0x01]))
    fun t => t.sp == 0xF3 && t.mem.read 0xF3 == 0xF4 && t.pc == 2 := by decide

/-- S9 and S10: SP - 1 just below the program's end, and at it. -/
theorem test_push_S9_S10 :
    nextHas (step { withRegs [(7, 5)] (booted [0x82, 0x07, 0x05, 0x45, 0x00]) with pc := 3 })
      (fun t => t.run == .faulted .stackOverflow && t.sp == 5 && t.pc == 3) ∧
    nextHas (step { withRegs [(7, 7)] (booted [0x82, 0x07, 0x07, 0x45, 0x07, 0x01]) with pc := 3 })
      (fun t => t.run == .running && t.mem.read 6 == 7 && t.sp == 6 && t.pc == 5) := by decide

/-- S3, its POP R7 -/
theorem test_pop_S3 :
    nextHas (step { withRegs [(0, 0x42), (7, 0xF3)] (booted [0x82, 0x00, 0x42, 0x45, 0x00, 0x46, 0x07, 0x01]) with
      pc := 5, mem := (booted [0x82, 0x00, 0x42, 0x45, 0x00, 0x46, 0x07, 0x01]).mem.write 0xF3 0x42 })
    fun t => t.sp == 0x42 && t.mem.read 0xF3 == 0 && t.pc == 7 := by decide

/-- S1, S6, S7, the POP of each -/
theorem test_pop_S1_S6_S7 :
    nextHas (step (booted [0x46, 0x00])) (fun t => t.run == .faulted .stackUnderflow && t.pc == 0 && t.sp == 0xF4) ∧
    nextHas (step (withRegs [(7, 255)] (booted [0x46, 0x00])))
      (fun t => t.run == .faulted .addressOutOfRange && t.sp == 255) ∧
    nextHas (step (withRegs [(7, 0xF5)] (booted [0x46, 0x00])))
      (fun t => t.run == .running && t.reg 0 == 0 && t.sp == 0xF6) := by decide

/-- K2, its CALL R7 -/
theorem test_call_K2 : nextHas (step (booted [0x50, 0x07, 0x01]))
    fun t => t.mem.read 0xF3 == 2 && t.sp == 0xF3 && t.pc == 0xF4 := by decide

/-- K4, its CALL at 254 -/
theorem test_call_K4 : nextHas (step (atTop 254 [0x50, 0x01]))
    fun t => t.run == .faulted .addressOutOfRange && t.pc == 254 && t.sp == 0xF4 := by decide

/-- P2, cycle 5 -/
theorem test_ret_P2 :
    nextHas (step { withRegs [(7, 0xF3)] (booted [0x11]) with mem := (booted [0x11]).mem.write 0xF3 8 })
    fun t => t.pc == 8 && t.mem.read 0xF3 == 0 && t.sp == 0xF4 := by decide

/-- K1 -/
theorem test_ret_K1 : nextHas (step (booted [0x11]))
    fun t => t.run == .faulted .stackUnderflow && t.pc == 0 && t.sp == 0xF4 := by decide

/-- H1 -/
theorem test_hlt_H1 : nextHas (step (booted [0x01])) fun t => t == { booted [0x01] with run := .halted } := by decide

/-- H2 -/
theorem test_hlt_H2 : nextHas (step (atTop 255 [0x01])) fun t => t.run == .halted && t.pc == 255 := by decide

/-! ### The cycle -/

/-- F1, F2 -/
theorem test_fetch_F1_F2 :
    nextHas (step (booted [0x00])) (fun t => t == { booted [0x00] with run := .faulted .unknownOpcode }) ∧
    nextHas (step State.reset) (fun t => t == { State.reset with run := .faulted .unknownOpcode }) := by decide

/-- T1, its LDI, and the cycle after -/
theorem test_fetch_T1 :
    nextHas (step (atTop 253 [0x82, 0x01, 0x07])) (fun t => t.reg 1 == 7 && t.pc == 256 && t.run == .running &&
      nextHas (step t) (fun u => u.run == .faulted .addressOutOfRange && u.pc == 256)) := by decide

/-- T4, T5, T6 -/
theorem test_fetch_T4_T5_T6 :
    nextHas (step (atTop 255 [0x47])) (fun t => t.run == .faulted .addressOutOfRange && t.pc == 255) ∧
    nextHas (step (atTop 254 [0xA0, 0x09])) (fun t => t.run == .faulted .addressOutOfRange && t.pc == 254) ∧
    nextHas (step (atTop 255 [0xFF])) (fun t => t.run == .faulted .unknownOpcode && t.pc == 255) := by decide

/-- R70: no step from a terminal state. -/
theorem test_no_step_after_the_end :
    step { State.reset with run := .halted } = .fault .noStepHalted ∧
    step { State.reset with run := .faulted .stackUnderflow } = .fault (.noStepFaulted .stackUnderflow) := ⟨rfl, rfl⟩

/-- Part 4: a program of 257 bytes is refused, one of 256 is loaded. -/
theorem test_boot_limit :
    (boot defaultStackTop OpcodeMap.default (List.replicate 257 0)).isNone ∧
    (boot defaultStackTop OpcodeMap.default (List.replicate 256 0)).isSome :=
  ⟨by rw [boot, State.load, if_neg (by rw [List.length_replicate]; decide)]; rfl,
    by rw [boot, State.load, if_pos (by rw [List.length_replicate])]; rfl⟩

/-- R60: the head of the example of 30_encoding.md, with a comment line, a blank line and an indented token. -/
theorem test_loader_reads_the_example :
    parseProgram "# LDI R0,8 ; HLT\n10000010 # LDI R0,8\n\n  00000000\n00001000\n00000001 # HLT".toList =
      .ok [0x82, 0x00, 0x08, 0x01] := by decide

/-- R60, R158: seven digits, nine digits and another character are each malformed. -/
theorem test_loader_refuses_malformed :
    parseProgram "0000001".toList = .error .malformedInstructionLine ∧
    parseProgram "100000100".toList = .error .malformedInstructionLine ∧
    parseProgram "1000001O".toList = .error .malformedInstructionLine := by decide

/-- R158: the errors of the Driver. -/
theorem test_launch_refuses :
    launch defaultStackTop OpcodeMap.default .noPath = .error .missingProgramArgument ∧
    launch defaultStackTop OpcodeMap.default .unreadable = .error .fileReadError := ⟨rfl, rfl⟩

/-- R61: the source's own spellings. -/
theorem test_written : written (.ldi 0 8) = "LDI R0,8" ∧ written (.cmp 0 1) = "CMP R0,R1" ∧ written .hlt = "HLT" := by
  decide

/-- The placed instruction is the one the next step runs. -/
theorem test_withFetchWord : nextHas (step (State.reset.withFetchWord 24 0x080082)) fun t => t.reg 0 == 8 && t.pc == 3 := by
  decide

/-- Neither refused nor stuck: RET, placed at the first fetch after reset, takes the fault the spec names. -/
theorem test_withFetchWord_ret : nextHas (step (State.reset.withFetchWord 8 0x11))
    fun t => t.run == .faulted .stackUnderflow := by decide

/-! ### Witnesses: every obligation with hypotheses has inputs that meet them -/

/-- A computation that `nextHas` accepts answers a next state. -/
theorem next_of {o : Host.Outcome State Fault Refusal} {p : State → Bool} (h : nextHas o p = true) :
    ∃ t, o = .next t ∧ p t = true := by
  cases o with
  | next t => exact ⟨t, rfl, h⟩
  | fault r => cases h
  | refused r => cases h

theorem atOpcode_of {m : Mnemonic} {s : State} (h : s.run = .running ∧ s.config.opc = OpcodeMap.default ∧ s.pc ≤ 255 ∧
    s.mem.read s.pc = OpcodeMap.default.byte m) : AtOpcode m s :=
  ⟨h.1, h.2.1 ▸ test_default_opcodes_injective, h.2.2.1, h.2.1 ▸ h.2.2.2⟩

theorem witness_DecodeEncodeRoundTrip :
    ∃ (o : OpcodeMap) (i : Instr) (_ : List Byte), o.Injective ∧ i.wellFormed = true :=
  ⟨OpcodeMap.default, .ldi 7 255, [1], by decide⟩

theorem witness_DecodedInstructionReencodes :
    decode OpcodeMap.default [0xA7, 0x00, 0x07, 0xFF] = .ok (.cmp 0 7, [0xFF]) := by decide

theorem witness_DecodeRejectsByName :
    (∀ m, OpcodeMap.default.byte m ≠ 0x48) ∧
    (OpcodeMap.default.Injective ∧ ([7] : List Byte).length < Mnemonic.ldi.operandCount) ∧
    (Instr.jeq 8).wellFormed = false := by
  refine ⟨fun m => ?_, by decide, by decide⟩
  cases m <;> decide

theorem witness_BootLoadsProgram :
    (List.replicate 256 (1 : Byte)).length ≤ 256 ∧ (List.replicate 257 (1 : Byte)).length > 256 := by
  rw [List.length_replicate, List.length_replicate]; decide

theorem witness_LoaderReadsTextFormat :
    (∀ l ∈ [((0x82 : Byte), ['L', 'D', 'I'])], '\n' ∉ l.2) ∧
    ((∀ c ∈ [' ', '\t'], c = ' ' ∨ c = '\t') ∧ '\n' ∉ ['n', 'o']) ∧
    (['1', '0'] ≠ [] ∧ (∀ c ∈ ['1', '0'], c ≠ '#' ∧ c.isWhitespace = false) ∧
      ¬ (['1', '0'].length = 8 ∧ ∀ c ∈ ['1', '0'], c = '0' ∨ c = '1')) ∧
    (parseProgram "00000001".toList = .ok [1] ∧ ∃ s, boot 0 OpcodeMap.default [1] = some s) :=
  ⟨by simp, by simp, by simp [Char.isWhitespace], by decide, _, rfl⟩

theorem witness_InvariantHoldsAtReset : ∃ o : OpcodeMap, o.Injective := ⟨_, test_default_opcodes_injective⟩

theorem witness_InvariantHoldsAfterBoot :
    OpcodeMap.default.Injective ∧ ∃ s, boot 0 OpcodeMap.default [0x45, 0x07, 0x01] = some s :=
  ⟨by decide, _, rfl⟩

theorem witness_InvariantKeptByStep : ∃ s t, State.Inv s ∧ step s = .next t ∧ t.mem ≠ s.mem := by
  obtain ⟨t, h, hp⟩ := next_of (p := fun t => t.mem != (booted [0x45, 0x07]).mem) (o := step (booted [0x45, 0x07]))
    (by decide)
  exact ⟨_, t, ⟨by decide, by decide, by decide, by decide, by decide⟩, h, by simpa using hp⟩

theorem witness_ConfigurationKeptByStep : ∃ s t, step s = .next t :=
  let ⟨t, h, _⟩ := next_of (p := fun _ => true) (o := step (booted [0x50, 0x00])) (by decide); ⟨_, t, h⟩

theorem witness_CanonicalMemoriesThatReadAlikeAreEqual :
    ∃ m m' : Memory, m.wf ∧ m'.wf ∧ m ≠ [] ∧ ∀ a : Nat, m.read a = m'.read a :=
  ⟨[(0, 1), (255, 7)], [(0, 1), (255, 7)], by decide, by decide, by decide, fun _ => rfl⟩

theorem witness_MemoryAccessPrimitives :
    ((-1 : Int) < 0 ∧ (256 : Int) > 255) ∧ ((0 : Int) ≤ 0 ∧ (0 : Int) ≤ 255) ∧ (0 : Int) ≤ 255 ∧ (255 : Int) ≤ 255 := by
  decide

/-- S10 at the lower bound of the stack region, S2 at the upper. -/
theorem witness_PushCompletes :
    ∃ s s' : State, pushAddress s = s.config.progLen ∧ pushAddress s ≤ (s.config.stackTop.toNat : Int) - 1 ∧
      (s'.config.progLen : Int) ≤ pushAddress s' ∧ pushAddress s' = (s'.config.stackTop.toNat : Int) - 1 :=
  ⟨withRegs [(7, 7)] (booted [0x82, 0x07, 0x07, 0x45, 0x07, 0x01]), booted [0x45, 0x07, 0x01], by decide⟩

/-- SP = 254 is the highest at which POP completes, 0 the lowest. -/
theorem witness_PopCompletes :
    ∃ s s' : State, (s.sp ≠ s.config.stackTop ∧ s.sp.toNat = 254) ∧ (s'.sp ≠ s'.config.stackTop ∧ s'.sp.toNat = 0) :=
  ⟨withRegs [(7, 254)] State.reset, withRegs [(7, 0)] State.reset, by decide⟩

/-- Part 4: CALL at 253 is the last that has a return address. -/
theorem witness_CallCompletes :
    ∃ s : State, s.pc + 2 = 255 ∧ (s.config.progLen : Int) ≤ pushAddress s ∧
      pushAddress s ≤ (s.config.stackTop.toNat : Int) - 1 :=
  ⟨{ booted [0x50, 0x00] with pc := 253 }, by decide⟩

theorem witness_RetCompletes :
    ∃ s s' : State, (s.sp ≠ s.config.stackTop ∧ s.sp.toNat = 254) ∧ (s'.sp ≠ s'.config.stackTop ∧ s'.sp.toNat = 0) :=
  witness_PopCompletes

/-- The hypotheses of a three-byte instruction's three clauses: opcode at 254; at 253, a register byte of 8; at 253, legal
operands. -/
theorem threeByteClauses (m : Mnemonic) : ∃ s1 s2 s3 : State,
    (AtOpcode m s1 ∧ s1.pc + 2 = 256) ∧
    (AtOpcode m s2 ∧ s2.pc + 2 = 255 ∧ (s2.mem.read (s2.pc + 1)).toNat = 8) ∧
    (AtOpcode m s3 ∧ s3.pc + 2 = 255 ∧ s3.mem.read (s3.pc + 1) = Reg.byte 7 ∧ s3.mem.read (s3.pc + 2) = Reg.byte 0) := by
  refine ⟨atTop 254 [OpcodeMap.default.byte m], atTop 253 [OpcodeMap.default.byte m, 8],
    atTop 253 [OpcodeMap.default.byte m, 7, 0], ⟨atOpcode_of ?_, rfl⟩, ⟨atOpcode_of ?_, rfl, ?_⟩,
    ⟨atOpcode_of ?_, rfl, ?_, ?_⟩⟩ <;> cases m <;> decide

/-- The same for a two-byte instruction: opcode at 255; at 254. -/
theorem twoByteClauses (m : Mnemonic) : ∃ s1 s2 s3 : State,
    (AtOpcode m s1 ∧ s1.pc + 1 = 256) ∧
    (AtOpcode m s2 ∧ s2.pc + 1 = 255 ∧ (s2.mem.read (s2.pc + 1)).toNat = 8) ∧
    (AtOpcode m s3 ∧ s3.pc + 1 = 255 ∧ s3.mem.read (s3.pc + 1) = Reg.byte 7) := by
  refine ⟨atTop 255 [OpcodeMap.default.byte m], atTop 254 [OpcodeMap.default.byte m, 8],
    atTop 254 [OpcodeMap.default.byte m, 7], ⟨atOpcode_of ?_, rfl⟩, ⟨atOpcode_of ?_, rfl, ?_⟩,
    ⟨atOpcode_of ?_, rfl, ?_⟩⟩ <;> cases m <;> decide

theorem witness_LdiFromFetchToResult : ∃ s1 s2 s3 : State,
    (AtOpcode .ldi s1 ∧ s1.pc + 2 > 255) ∧
    (AtOpcode .ldi s2 ∧ s2.pc + 2 ≤ 255 ∧ (s2.mem.read (s2.pc + 1)).toNat > 7) ∧
    (AtOpcode .ldi s3 ∧ s3.pc + 2 ≤ 255 ∧ s3.mem.read (s3.pc + 1) = Reg.byte 7) :=
  let ⟨s1, s2, s3, h1, h2, h3⟩ := threeByteClauses .ldi
  ⟨s1, s2, s3, ⟨h1.1, by omega⟩, ⟨h2.1, by omega, by omega⟩, ⟨h3.1, by omega, h3.2.2.1⟩⟩

theorem witness_PrnFromFetchToResult : ∃ s1 s2 s3 : State,
    (AtOpcode .prn s1 ∧ s1.pc + 1 > 255) ∧
    (AtOpcode .prn s2 ∧ s2.pc + 1 ≤ 255 ∧ (s2.mem.read (s2.pc + 1)).toNat > 7) ∧
    (AtOpcode .prn s3 ∧ s3.pc + 1 ≤ 255 ∧ s3.mem.read (s3.pc + 1) = Reg.byte 7) :=
  let ⟨s1, s2, s3, h1, h2, h3⟩ := twoByteClauses .prn
  ⟨s1, s2, s3, ⟨h1.1, by omega⟩, ⟨h2.1, by omega, by omega⟩, ⟨h3.1, by omega, h3.2.2⟩⟩

theorem witness_AddMulFromFetchToResult : ∀ m ∈ [Mnemonic.add, Mnemonic.mul], ∃ s1 s2 s3 : State,
    (AtOpcode m s1 ∧ s1.pc + 2 > 255) ∧
    (AtOpcode m s2 ∧ s2.pc + 2 ≤ 255 ∧ (s2.mem.read (s2.pc + 1)).toNat > 7) ∧
    (AtOpcode m s3 ∧ s3.pc + 2 ≤ 255 ∧ s3.mem.read (s3.pc + 1) = Reg.byte 7 ∧ s3.mem.read (s3.pc + 2) = Reg.byte 0) :=
  fun m _ =>
    let ⟨s1, s2, s3, h1, h2, h3⟩ := threeByteClauses m
    ⟨s1, s2, s3, ⟨h1.1, by omega⟩, ⟨h2.1, by omega, by omega⟩, ⟨h3.1, by omega, h3.2.2⟩⟩

theorem witness_CmpFromFetchToResult : ∃ s1 s2 s3 : State,
    (AtOpcode .cmp s1 ∧ s1.pc + 2 > 255) ∧
    (AtOpcode .cmp s2 ∧ s2.pc + 2 ≤ 255 ∧ (s2.mem.read (s2.pc + 1)).toNat > 7) ∧
    (AtOpcode .cmp s3 ∧ s3.pc + 2 ≤ 255 ∧ s3.mem.read (s3.pc + 1) = Reg.byte 7 ∧
      s3.mem.read (s3.pc + 2) = Reg.byte 0) :=
  let ⟨s1, s2, s3, h1, h2, h3⟩ := threeByteClauses .cmp
  ⟨s1, s2, s3, ⟨h1.1, by omega⟩, ⟨h2.1, by omega, by omega⟩, ⟨h3.1, by omega, h3.2.2⟩⟩

theorem witness_JmpFromFetchToResult : ∃ s1 s2 s3 : State,
    (AtOpcode .jmp s1 ∧ s1.pc + 1 > 255) ∧
    (AtOpcode .jmp s2 ∧ s2.pc + 1 ≤ 255 ∧ (s2.mem.read (s2.pc + 1)).toNat > 7) ∧
    (AtOpcode .jmp s3 ∧ s3.pc + 1 ≤ 255 ∧ s3.mem.read (s3.pc + 1) = Reg.byte 7) :=
  let ⟨s1, s2, s3, h1, h2, h3⟩ := twoByteClauses .jmp
  ⟨s1, s2, s3, ⟨h1.1, by omega⟩, ⟨h2.1, by omega, by omega⟩, ⟨h3.1, by omega, h3.2.2⟩⟩

theorem witness_JeqJneFromFetchToResult : ∀ m ∈ [Mnemonic.jeq, Mnemonic.jne], ∃ s1 s2 s3 : State,
    (AtOpcode m s1 ∧ s1.pc + 1 > 255) ∧
    (AtOpcode m s2 ∧ s2.pc + 1 ≤ 255 ∧ (s2.mem.read (s2.pc + 1)).toNat > 7) ∧
    (AtOpcode m s3 ∧ s3.pc + 1 ≤ 255 ∧ s3.mem.read (s3.pc + 1) = Reg.byte 7) :=
  fun m _ =>
    let ⟨s1, s2, s3, h1, h2, h3⟩ := twoByteClauses m
    ⟨s1, s2, s3, ⟨h1.1, by omega⟩, ⟨h2.1, by omega, by omega⟩, ⟨h3.1, by omega, h3.2.2⟩⟩

theorem witness_IllFormedInstructionRaisesInvalidRegister : (Instr.pop 8).wellFormed = false := by decide

/-- S9 just below the stack region, S5 above it, with `pc` where CALL has a return address; K4's clause has none. -/
theorem witness_PushAndCallOverflow : ∃ s s' : State,
    (pushAddress s = (s.config.progLen : Int) - 1 ∧ s.pc + 2 ≤ 255) ∧
    (pushAddress s' = (s'.config.stackTop.toNat : Int) ∧ s'.pc + 2 = 255) :=
  ⟨withRegs [(7, 5)] (booted [0x82, 0x07, 0x05, 0x45, 0x00]), { withRegs [(7, 0xF5)] (booted []) with pc := 253 },
    by decide⟩

theorem witness_UnderflowExactlyAtEmptyStack :
    ∃ s t : State, s.run = .running ∧ s.sp = s.config.stackTop ∧ exec (.pop 3) s = .next t ∧
      t.run = .faulted .stackUnderflow ∧ step s = .next t := by
  obtain ⟨t, h, hp⟩ := next_of (p := fun t => t.run == .faulted .stackUnderflow) (o := step (booted [0x46, 0x03]))
    (by decide)
  exact ⟨booted [0x46, 0x03], t, rfl, by decide, h ▸ rfl, by simpa using hp, h⟩

theorem witness_ExecuteTimeAddressFaults :
    ∃ s s' : State, s.pc = 254 ∧ s'.sp.toNat = 255 ∧ s'.sp ≠ s'.config.stackTop :=
  ⟨atTop 254 [0x50, 0x01], withRegs [(7, 255)] (booted [0x46, 0x00]), by decide⟩

/-- One input for each of the listed cases: `pc` = 256, an operand past the end, CALL at 254, POP with SP = 255. -/
theorem witness_AddressOutOfRangeOnlyInListedCases :
    ∀ s ∈ [{ booted [] with pc := 256 }, atTop 255 [0x47], atTop 254 [0x50, 0x01],
        withRegs [(7, 255)] (booted [0x46, 0x00])],
      s.run = .running ∧ ∃ t, step s = .next t ∧ t.run = .faulted .addressOutOfRange := by
  have h : ∀ s ∈ [{ booted [] with pc := 256 }, atTop 255 [0x47], atTop 254 [0x50, 0x01],
        withRegs [(7, 255)] (booted [0x46, 0x00])],
      s.run = .running ∧ nextHas (step s) (fun t => t.run == .faulted .addressOutOfRange) = true := by decide
  intro s hs
  obtain ⟨t, h1, h2⟩ := next_of (h s hs).2
  exact ⟨(h s hs).1, t, h1, by simpa using h2⟩

theorem witness_UnsupportedAluOperationNeverRaised :
    ∃ s t : State, s.run = .running ∧ exec (.mul 1 1) s = .next t ∧ step s = .next t :=
  ⟨booted [0xA2, 0x01, 0x01], _, rfl, rfl, rfl⟩

theorem witness_UnknownOpcodeEndsTheRun : ∃ s : State, s.run = .running ∧ s.pc = 255 ∧
    (∀ m, s.config.opc.byte m ≠ s.mem.read s.pc) ∧ s.config.opc.Injective := by
  refine ⟨atTop 255 [0xFF], rfl, rfl, fun m => ?_, test_default_opcodes_injective⟩
  cases m <;> decide

theorem witness_FaultsArePrecise : ∃ s t : State, step s = .next t ∧ t.run = .faulted .stackOverflow := by
  obtain ⟨t, h, hp⟩ := next_of (p := fun t => t.run == .faulted .stackOverflow)
    (o := step (withRegs [(7, 0)] (booted [0x45, 0x00]))) (by decide)
  exact ⟨_, t, h, by simpa using hp⟩

theorem witness_StepsExactlyWhileRunning :
    ∃ s s' : State, s.run = .halted ∧ s'.run = .faulted .invalidRegister ∧ State.reset.run = .running :=
  ⟨{ State.reset with run := .halted }, { State.reset with run := .faulted .invalidRegister }, rfl, rfl, rfl⟩

theorem witness_StepRunsDecodedInstruction : ∃ (s : State) (i : Instr) (rest : List Byte), s.run = .running ∧
    decode s.config.opc (fetchWindow s) = .ok (i, rest) ∧ s.config.opc.Injective ∧ i.wellFormed = true ∧
    HoldsAtPc i s := by
  refine ⟨atTop 253 [0x82, 0x07, 0xFF], .ldi 7 255, [], rfl, by decide, test_default_opcodes_injective, by decide, ?_⟩
  intro k h
  have : k = 0 ∨ k = 1 ∨ k = 2 := by simp [encode, Instr.operandBytes] at h; omega
  rcases this with rfl | rfl | rfl <;> exact ⟨by decide, rfl⟩

theorem witness_PlacedInstructionIsRun : ∃ (s : State) (i : Instr) (rest : List Byte), s.pc = 253 ∧
    decode s.config.opc (wordBytes 24 0x0500A0) = .ok (i, rest) :=
  ⟨{ State.reset with pc := 253 }, .add 0 5, [], rfl, by decide⟩

theorem witness_StepRefinesR80 : State.reset.run = .running ∧ (atTop 253 [0x82, 0x01, 0x07]).run = .running := by decide

theorem witness_FlagsAreMutuallyExclusive : ∃ s t : State, AtOpcode .cmp s ∧ step s = .next t ∧ t.run = .running ∧
    s.flags.AtMostOne ∧ ∃ s' t' : State, step s' = .next t' ∧ s'.flags.ExactlyOne := by
  obtain ⟨t, h, hp⟩ := next_of (p := fun t => t.run == .running) (o := step (booted [0xA7, 0x00, 0x01])) (by decide)
  obtain ⟨t', h', -⟩ := next_of (p := fun _ => true) (o := step (atTen 0x55 0x02 ⟨false, true, false⟩)) (by decide)
  exact ⟨_, t, atOpcode_of (by decide), h, by simpa using hp, by decide, _, t', h', by decide⟩

theorem witness_FlagsWrittenByCmpReadByJumps :
    (∃ s t : State, step s = .next t ∧ t.flags ≠ s.flags) ∧
    ∃ s t : State, step s = .next t ∧ s.mem.read s.pc ≠ s.config.opc.jeq ∧ s.mem.read s.pc ≠ s.config.opc.jne := by
  obtain ⟨t, h, hp⟩ := next_of (p := fun t => t.flags != State.reset.flags) (o := step (booted [0xA7, 0x00, 0x01]))
    (by decide)
  exact ⟨⟨_, t, h, by simp at hp; exact hp⟩, _, t, h, by decide, by decide⟩

theorem witness_OutputAppendedByPrnAndNeverRead : ∃ s t : State, step s = .next t ∧ t.out ≠ s.out := by
  obtain ⟨t, h, hp⟩ := next_of (p := fun t => t.out != []) (o := step (booted [0x47, 0x07])) (by decide)
  exact ⟨_, t, h, by simp at hp; exact hp⟩

/-- A push, and a pop that clears a program byte (S11). -/
theorem witness_MemoryChangedOnlyThroughTheStack :
    (∃ s t : State, step s = .next t ∧ ∃ a : Nat, t.mem.read a ≠ s.mem.read a ∧ (a : Int) = pushAddress s) ∧
    ∃ s t : State, step s = .next t ∧ ∃ a : Nat, t.mem.read a ≠ s.mem.read a ∧ a = s.sp.toNat := by
  obtain ⟨t, h, hp⟩ := next_of (p := fun t => t.mem.read 0xF3 != 0) (o := step (booted [0x45, 0x07])) (by decide)
  obtain ⟨t', h', hp'⟩ := next_of (p := fun t => t.mem.read 1 != 7) (o := step (withRegs [(7, 1)] (booted [0x46, 0x07])))
    (by decide)
  exact ⟨⟨_, t, h, 0xF3, by simp at hp; exact hp, by decide⟩, _, t', h', 1, by simp at hp'; exact hp', by decide⟩

theorem witness_RegistersChangedOnlyAsTabled :
    (∃ s t : State, step s = .next t ∧ t.reg 3 ≠ s.reg 3) ∧ ∃ s t : State, step s = .next t ∧ t.sp ≠ s.sp := by
  obtain ⟨t, h, hp⟩ := next_of (p := fun t => t.reg 3 != 0) (o := step (booted [0x82, 0x03, 0x01])) (by decide)
  obtain ⟨t', h', hp'⟩ := next_of (p := fun t => t.sp != 0xF4) (o := step (booted [0x50, 0x00])) (by decide)
  exact ⟨⟨_, t, h, by simp at hp; exact hp⟩, _, t', h', by simp at hp'; exact hp'⟩

/-- S11's POP, as a run of one cycle: address 7 is below `PROG_LEN` and is cleared. -/
theorem witness_OutsideStackRegionOnlyCleared : ∃ s t : State, runFor 1 s = .next t ∧
    ¬ (s.config.progLen ≤ 1 ∧ 1 < s.config.stackTop.toNat) ∧ t.mem.read 1 ≠ s.mem.read 1 := by
  obtain ⟨t, h, hp⟩ := next_of (p := fun t => t.mem.read 1 != 7)
    (o := runFor 1 (withRegs [(7, 1)] (booted [0x46, 0x07]))) (by decide)
  exact ⟨_, t, h, by decide, by simp at hp; exact hp⟩

theorem witness_HaltedOnlyByHlt : ∃ s t : State, step s = .next t ∧ t.run = .halted := by
  obtain ⟨t, h, hp⟩ := next_of (p := fun t => t.run == .halted) (o := step (booted [0x01])) (by decide)
  exact ⟨_, t, h, by simp at hp; exact hp⟩

theorem witness_PushedByteIsFetchedAsOpcode : ∃ s t : State, push 0x01 s = .ok t := ⟨booted [], _, rfl⟩

theorem witness_PushesThenPopsAreLifo : ∃ s t : State, pushAll [1, 2, 3] s = .ok t := ⟨booted [], _, rfl⟩

/-- A stack region of one cell: one push fits, two do not. -/
theorem witness_StackCapacityFromEmpty : ∃ s : State, s.sp = s.config.stackTop ∧
    ([7] : List Byte).length = s.config.stackTop.toNat - s.config.progLen ∧
    ([7, 8] : List Byte).length > s.config.stackTop.toNat - s.config.progLen :=
  ⟨(State.resetWith 4 OpcodeMap.default).load [0x45, 0x00, 0x01] |>.getD State.reset, by decide⟩

theorem witness_CallThenRetResumes : ∃ s t u : State, s.run = .running ∧ exec (.call 1) s = .next t ∧
    t.run = .running ∧ u.sp = t.sp ∧ u.mem.read t.sp.toNat = t.mem.read t.sp.toNat ∧ u.config = t.config ∧ u ≠ t := by
  obtain ⟨t, h, hp⟩ := next_of (p := fun t => t.run == .running && t.setReg 0 20 != t && (t.setReg 0 20).sp == t.sp)
    (o := exec (.call 1) (withRegs [(1, 11)] (booted [0x50, 0x01]))) (by decide)
  simp at hp
  exact ⟨_, t, t.setReg 0 20, rfl, h, hp.1.1, hp.2, rfl, rfl, hp.1.2⟩

/-- P6: JMP to itself. -/
theorem witness_RepeatedStateRepeatsForever : ∃ (n : Nat) (s t : State), 0 < n ∧ runFor n s = .next t ∧ SameButOut s t := by
  obtain ⟨t, h, hp⟩ := next_of (p := fun t => t == booted [0x54, 0x00]) (o := runFor 1 (booted [0x54, 0x00])) (by decide)
  exact ⟨1, _, t, by decide, h, by simp at hp; subst hp; rfl⟩

theorem witness_OutsideViewOfStatus :
    FaultKind.addressOutOfRange.code = FaultKind.addressOutOfRange.code ∧ RunState.running.faultCode ≤ 6 := by decide

end Sys2Proof.Tests
end

section
/-! SUPPORT. A step by what its fetch gives, and what the fetched instruction has to do with the opcode byte at `pc`. -/

namespace Sys2Proof.Machine

/-- A running machine executes the instruction it fetches (R75). -/
theorem step_of_fetch_ok {s : State} {i : Instr} (hr : s.run = .running) (h : fetchInstr s = .ok i) :
    step s = exec i s := by
  rw [step_of_running s hr, cycle, h]

/-- A running machine takes the fault its fetch ends in (R77). -/
theorem step_of_fetch_error {s : State} {k : FaultKind} (hr : s.run = .running) (h : fetchInstr s = .error k) :
    step s = .next (s.raise k) := by
  rw [step_of_running s hr, cycle, h]

/-- A fetched instruction was found by the opcode byte of its row (R56). -/
theorem read_pc_of_fetchInstr {s : State} {i : Instr} {m : Mnemonic} (h : fetchInstr s = .ok i) (hm : i.mnemonic = m) :
    s.mem.read s.pc = s.config.opc.byte m := by
  obtain ⟨-, -, hlookup, -⟩ := fetchInstr_ok h
  subst hm
  exact (OpcodeMap.byte_of_lookup hlookup).symm

/-- At the opcode of a row, a fetch gives an instruction of that row. -/
theorem AtOpcode.mnemonic_of_fetchInstr {m : Mnemonic} {s : State} {i : Instr} (hm : AtOpcode m s)
    (h : fetchInstr s = .ok i) : i.mnemonic = m := by
  obtain ⟨-, hinj, -, hread⟩ := hm
  exact hinj.eq ((read_pc_of_fetchInstr h rfl).symm.trans hread)

end Sys2Proof.Machine
end

section
/-! SUPPORT. R19 at execution, by comparing an execution with the one from the same state with other flags: CMP alone
writes the flags, and the jumps on Equal alone read them. -/

namespace Sys2Proof.Machine

/-- `s` with the flags `f`. -/
def State.withFlags (s : State) (f : Flags) : State := { s with flags := f }

@[simp] theorem State.flags_withFlags (s : State) (f : Flags) : (s.withFlags f).flags = f := rfl

theorem State.withFlags_ite (c : Prop) [Decidable c] (s t : State) (f : Flags) :
    (if c then s else t).withFlags f = if c then s.withFlags f else t.withFlags f := apply_ite (State.withFlags · f) c s t

/-- Every instruction but CMP does the same under other flags and leaves them in place; of a jump on Equal this asks that
the two states agree on Equal. Each case is one equation of Laws/Exec.lean read at the two states: no operation in it but
the test of Equal looks at the flags. -/
theorem exec_withFlags_of_ne_cmp {i : Instr} (hi : i.wellFormed = true) (hne : i.mnemonic ≠ .cmp) (s : State) (f : Flags)
    (he : i.mnemonic = .jeq ∨ i.mnemonic = .jne → f.e = s.flags.e) :
    ∃ t, exec i s = .next t ∧ exec i (s.withFlags f) = .next (t.withFlags f) := by
  revert hne he
  apply wellFormed_cases i hi
  case ldi => exact fun r imm _ _ => ⟨_, exec_ldi r imm s, exec_ldi r imm (s.withFlags f)⟩
  case prn => exact fun r _ _ => ⟨_, exec_prn r s, exec_prn r (s.withFlags f)⟩
  case add => exact fun ra rb _ _ => ⟨_, exec_add ra rb s, exec_add ra rb (s.withFlags f)⟩
  case mul => exact fun ra rb _ _ => ⟨_, exec_mul ra rb s, exec_mul ra rb (s.withFlags f)⟩
  case push => exact fun r _ _ => ⟨_, exec_push r s, by rw [exec_push, State.withFlags_ite]; rfl⟩
  case pop => exact fun r _ _ => ⟨_, exec_pop r s, by rw [exec_pop, State.withFlags_ite, State.withFlags_ite]; rfl⟩
  case call => exact fun r _ _ => ⟨_, exec_call r s, by rw [exec_call, State.withFlags_ite, State.withFlags_ite]; rfl⟩
  case ret => exact fun _ _ => ⟨_, exec_ret s, by rw [exec_ret, State.withFlags_ite, State.withFlags_ite]; rfl⟩
  case cmp => exact fun _ _ hne => absurd rfl hne
  case jmp => exact fun r _ _ => ⟨_, exec_jmp r s, exec_jmp r (s.withFlags f)⟩
  case jeq =>
    exact fun r _ he =>
      ⟨_, exec_jeq r s, by rw [exec_jeq, State.flags_withFlags, he (.inl rfl), State.withFlags_ite]; rfl⟩
  case jne =>
    exact fun r _ he =>
      ⟨_, exec_jne r s, by rw [exec_jne, State.flags_withFlags, he (.inr rfl), State.withFlags_ite]; rfl⟩
  case hlt => exact fun _ _ => ⟨_, exec_hlt s, exec_hlt (s.withFlags f)⟩

/-- Every instruction but CMP leaves the flags as they were: put in place of themselves, they are still there after it. -/
theorem flags_of_exec_of_ne_cmp {i : Instr} (hi : i.wellFormed = true) (hne : i.mnemonic ≠ .cmp) {s t : State}
    (h : exec i s = .next t) : t.flags = s.flags := by
  obtain ⟨u, -, hself⟩ := exec_withFlags_of_ne_cmp hi hne s s.flags fun _ => rfl
  cases h.symm.trans hself
  rfl

/-- A well-formed instruction of CMP's row names two registers. -/
theorem exists_regs_of_cmp {i : Instr} (hi : i.wellFormed = true) (hm : i.mnemonic = .cmp) :
    ∃ ra rb : Reg, i = .cmp ra.byte rb.byte := by
  revert hm
  apply wellFormed_cases i hi
  case cmp => exact fun ra rb _ => ⟨ra, rb, rfl⟩
  all_goals intros; contradiction

/-- A CMP overwrites whatever flags it finds: from any, it ends in one state, whose flags are its comparison (R131). -/
theorem exec_withFlags_of_cmp {i : Instr} (hi : i.wellFormed = true) (hm : i.mnemonic = .cmp) {s t : State}
    (h : exec i s = .next t) :
    (∃ a b, t.flags = Flags.compare a b) ∧ ∀ f, exec i (s.withFlags f) = .next t := by
  obtain ⟨ra, rb, rfl⟩ := exists_regs_of_cmp hi hm
  rw [exec_cmp] at h
  cases h
  exact ⟨⟨_, _, rfl⟩, fun f => exec_cmp ra rb (s.withFlags f)⟩

end Sys2Proof.Machine
end

section
/-! The flags through a step (R18, R19): who writes and reads them, and how many are set. -/

namespace Sys2Proof.Machine

/-- R19, the writer: a step leaves the flags as they were, or is at CMP's opcode and leaves them as a comparison. -/
theorem step_flags {s t : State} (h : step s = .next t) :
    t.flags = s.flags ∨ s.mem.read s.pc = s.config.opc.cmp ∧ ∃ a b, t.flags = Flags.compare a b := by
  obtain ⟨-, ⟨i, hfetch, hexec⟩ | ⟨k, -, rfl⟩⟩ := step_cases s t h
  · obtain ⟨hwf, -⟩ := fetchInstr_ok hfetch
    by_cases hm : i.mnemonic = .cmp
    · exact .inr ⟨read_pc_of_fetchInstr hfetch hm, (exec_withFlags_of_cmp hwf hm hexec).1⟩
    · exact .inl (flags_of_exec_of_ne_cmp hwf hm hexec)
  · exact .inl rfl

/-- R19, the readers: under other flags a step comes out the same, flags apart, and agrees on Equal if it did before; at
the opcodes of the jumps on Equal this asks that it did. -/
theorem step_withFlags {s t : State} (h : step s = .next t) (f : Flags)
    (he : s.mem.read s.pc = s.config.opc.jeq ∨ s.mem.read s.pc = s.config.opc.jne → f.e = s.flags.e) :
    ∃ f', step (s.withFlags f) = .next (t.withFlags f') ∧ (f.e = s.flags.e → f'.e = t.flags.e) := by
  obtain ⟨hr, ⟨i, hfetch, hexec⟩ | ⟨k, hfetch, rfl⟩⟩ := step_cases s t h
  · obtain ⟨hwf, -⟩ := fetchInstr_ok hfetch
    have hstep : step (s.withFlags f) = exec i (s.withFlags f) := step_of_fetch_ok hr hfetch
    by_cases hm : i.mnemonic = .cmp
    · exact ⟨t.flags, hstep.trans ((exec_withFlags_of_cmp hwf hm hexec).2 f), fun _ => rfl⟩
    · have hjump : i.mnemonic = .jeq ∨ i.mnemonic = .jne → f.e = s.flags.e := fun hj =>
        he (hj.imp (read_pc_of_fetchInstr hfetch) (read_pc_of_fetchInstr hfetch))
      obtain ⟨u, hu, hother⟩ := exec_withFlags_of_ne_cmp hwf hm s f hjump
      cases hexec.symm.trans hu
      exact ⟨f, hstep.trans hother, fun hfe => by rw [hfe, flags_of_exec_of_ne_cmp hwf hm hexec]⟩
  · exact ⟨f, step_of_fetch_error (s := s.withFlags f) hr hfetch, id⟩

/-- Settles O49: the writer by `step_flags`, the readers by `step_withFlags`. -/
theorem flagsWrittenByCmpReadByJumps : Obligations.FlagsWrittenByCmpReadByJumps := by
  unfold Obligations.FlagsWrittenByCmpReadByJumps
  refine ⟨fun s t h hne => ?_, fun s t l g h => ?_, fun s t f h hjeq hjne => ?_⟩
  · obtain hkept | ⟨hcmp, -⟩ := step_flags h
    · exact absurd hkept hne
    · exact hcmp
  · obtain ⟨f', hstep, hequal⟩ := step_withFlags h { l := l, g := g, e := s.flags.e } fun _ => rfl
    exact ⟨t.withFlags f', hstep, rfl, hequal rfl⟩
  · obtain ⟨f', hstep, -⟩ := step_withFlags h f fun hjump => (hjump.elim hjeq hjne).elim
    exact ⟨t.withFlags f', hstep, rfl⟩

/-! ### How many flags are set -/

@[simp] theorem State.flags_resetWith (top : Byte) (o : OpcodeMap) :
    (State.resetWith top o).flags = { l := false, g := false, e := false } := rfl

theorem Flags.ExactlyOne.atMostOne {f : Flags} (h : f.ExactlyOne) : f.AtMostOne := h.le

/-- R130: a comparison sets exactly one flag, whichever way it comes out. -/
theorem Flags.compare_exactlyOne (a b : Byte) : (Flags.compare a b).ExactlyOne := by
  rcases lt_trichotomy a.toNat b.toNat with h | h | h
  · simp [Flags.ExactlyOne, Flags.compare, h, h.not_gt, h.ne]
  · simp [Flags.ExactlyOne, Flags.compare, h]
  · simp [Flags.ExactlyOne, Flags.compare, h, h.not_gt, h.ne']

/-- Whatever holds of every comparison is kept by every step. -/
theorem step_keeps_of_compare {P : Flags → Prop} (hP : ∀ a b, P (Flags.compare a b)) {s t : State}
    (h : step s = .next t) (hs : P s.flags) : P t.flags := by
  obtain hkept | ⟨-, a, b, hflags⟩ := step_flags h
  · rwa [hkept]
  · rw [hflags]; exact hP a b

/-- A step at CMP's opcode leaves exactly one flag set, unless it ends in a fault. -/
theorem step_exactlyOne_of_atOpcode_cmp {s t : State} (hat : AtOpcode .cmp s) (h : step s = .next t)
    (hrun : t.run = .running) : t.flags.ExactlyOne := by
  obtain ⟨-, ⟨i, hfetch, hexec⟩ | ⟨k, -, rfl⟩⟩ := step_cases s t h
  · obtain ⟨hwf, -⟩ := fetchInstr_ok hfetch
    obtain ⟨⟨a, b, hflags⟩, -⟩ := exec_withFlags_of_cmp hwf (hat.mnemonic_of_fetchInstr hfetch) hexec
    rw [hflags]
    exact Flags.compare_exactlyOne a b
  · cases hrun

/-- Settles O48: a comparison sets exactly one flag, and a step that leaves none keeps the flags. -/
theorem flagsAreMutuallyExclusive : Obligations.FlagsAreMutuallyExclusive := by
  unfold Obligations.FlagsAreMutuallyExclusive
  exact ⟨State.flags_resetWith,
    fun _ _ => step_keeps_of_compare fun a b => (Flags.compare_exactlyOne a b).atMostOne,
    fun _ _ => step_exactlyOne_of_atOpcode_cmp,
    fun _ _ => step_keeps_of_compare Flags.compare_exactlyOne⟩

end Sys2Proof.Machine
end

section
/-! The access primitives for an integer address (R31, R32): an address that is not a cell's, and a read after a write. -/

namespace Sys2Proof.Machine

theorem memRead_of_outside {a : Int} (h : a < 0 ∨ a > 255) (s : State) : memRead a s = .error .addressOutOfRange :=
  if_pos h

theorem memWrite_of_outside {a : Int} (h : a < 0 ∨ a > 255) (v : Byte) (s : State) :
    memWrite a v s = .error .addressOutOfRange :=
  if_pos h

/-- R32: a cell reads the value last written to it. -/
theorem memRead_write_same (a : Nat) (v : Byte) (s : State) (h : a < memSize) :
    memRead a { s with mem := s.mem.write a v } = .ok v := by
  rw [memRead_of_mem _ _ h, Memory.read_write, if_pos rfl]

/-- R32: every other cell reads what it did before the write. -/
theorem sameMemoryBut_write (a : Nat) (v : Byte) (s : State) :
    SameMemoryBut a s { s with mem := s.mem.write a v } := by
  intro b hb
  rw [Memory.read_write, if_neg (Nat.cast_injective.ne_iff.mp hb)]

/-- R30, R31: an integer address inside [0,255] is that of a cell. -/
theorem exists_cell_of_inside {a : Int} (h0 : 0 ≤ a) (h255 : a ≤ 255) : ∃ n : Nat, n < memSize ∧ a = n := by
  lift a to ℕ using h0
  exact ⟨a, by simp only [memSize]; omega, rfl⟩

/-- Settles O13: outside [0,255] both accesses are refused; inside, the address is a cell's, and the write replaces the
memory alone. -/
theorem memoryAccessPrimitives : Obligations.MemoryAccessPrimitives := by
  unfold Obligations.MemoryAccessPrimitives
  refine ⟨fun a s v h => ⟨memRead_of_outside h s, memWrite_of_outside h v s⟩, fun a s v h0 h255 => ?_,
    fun a top o h0 h255 => ?_⟩
  · obtain ⟨n, hn, rfl⟩ := exists_cell_of_inside h0 h255
    exact ⟨memRead_of_mem n s hn, _, memWrite_of_mem n v s hn, memRead_write_same n v s hn, sameMemoryBut_write n v s,
      fun q => State.reg_with_mem s _ q, rfl, rfl, rfl, rfl, rfl⟩
  · obtain ⟨n, hn, rfl⟩ := exists_cell_of_inside h0 h255
    rw [memRead_of_mem n _ hn, State.mem_resetWith, Memory.read_nil]

end Sys2Proof.Machine
end

section
/-! SUPPORT. A step at the opcode byte of a known row, by what its operand bytes are: one is missing (R73), one names no
register (R74), or the instruction they assemble to is executed (R75). -/

namespace Sys2Proof.Machine

/-- R52: the bytes that name no register are those above 7. -/
theorem validReg_eq_false_iff {b : Byte} : validReg b = false ↔ b.toNat > 7 := by
  simp only [validReg, decide_eq_false_iff_not]; omega

variable {m : Mnemonic} {s : State}

theorem AtOpcode.running (h : AtOpcode m s) : s.run = .running := h.1

/-- At a row's opcode, the fetch is down to the checks of the operand bytes. -/
theorem AtOpcode.fetchInstr_eq (h : AtOpcode m s) :
    fetchInstr s =
      if 255 < s.pc + m.operandCount then .error .addressOutOfRange
      else if (assemble m (s.mem.read (s.pc + 1)) (s.mem.read (s.pc + 2))).wellFormed = true then
        .ok (assemble m (s.mem.read (s.pc + 1)) (s.mem.read (s.pc + 2)))
      else .error .invalidRegister := by
  obtain ⟨-, hinj, hpc, hread⟩ := h
  rw [Machine.fetchInstr_eq, if_neg (not_lt.mpr hpc), hread, OpcodeMap.lookup_byte hinj]

theorem AtOpcode.step_of_missing_operand (h : AtOpcode m s) (hend : s.pc + m.operandCount > 255) :
    step s = .next (s.raise .addressOutOfRange) :=
  step_of_fetch_error h.running (by rw [h.fetchInstr_eq, if_pos hend])

theorem AtOpcode.step_of_not_wellFormed (h : AtOpcode m s) (hend : s.pc + m.operandCount ≤ 255)
    (hwf : (assemble m (s.mem.read (s.pc + 1)) (s.mem.read (s.pc + 2))).wellFormed = false) :
    step s = .next (s.raise .invalidRegister) :=
  step_of_fetch_error h.running (by rw [h.fetchInstr_eq, if_neg (not_lt.mpr hend), if_neg (ne_true_of_eq_false hwf)])

theorem AtOpcode.step_of_wellFormed (h : AtOpcode m s) (hend : s.pc + m.operandCount ≤ 255)
    (hwf : (assemble m (s.mem.read (s.pc + 1)) (s.mem.read (s.pc + 2))).wellFormed = true) :
    step s = exec (assemble m (s.mem.read (s.pc + 1)) (s.mem.read (s.pc + 2))) s :=
  step_of_fetch_ok h.running (by rw [h.fetchInstr_eq, if_neg (not_lt.mpr hend), if_pos hwf])

end Sys2Proof.Machine
end

section
/-! PRN from fetch to result (R91). -/

namespace Sys2Proof.Machine

/-- R91: the host shows an emitted value as one more line. -/
@[simp] theorem State.outputLines_emit (s : State) (v : Byte) :
    (s.emit v).outputLines = s.outputLines ++ [Nat.repr v.toNat] := by
  simp [State.outputLines]

@[simp] theorem State.outputLines_advance (s : State) (n : Nat) : (s.advance n).outputLines = s.outputLines := rfl

/-- A PRN whose operand byte is there and names a register emits that register's value and goes on behind it. -/
theorem AtOpcode.step_prn {s : State} (h : AtOpcode .prn s) (hend : s.pc + 1 ≤ 255) {r : Reg}
    (hr : s.mem.read (s.pc + 1) = r.byte) : step s = .next ((s.emit (s.reg r)).advance 1) := by
  have hwf : (assemble .prn (s.mem.read (s.pc + 1)) (s.mem.read (s.pc + 2))).wellFormed = true := by
    rw [hr]; exact validReg_byte r
  rw [h.step_of_wellFormed hend hwf, hr]
  exact exec_prn r s

/-- Settles O30: the two faults are those of the operand check and leave `out` as it was; a PRN that passes it ends in
the state `AtOpcode.step_prn` names. -/
theorem prnFromFetchToResult : Obligations.PrnFromFetchToResult := by
  unfold Obligations.PrnFromFetchToResult
  refine fun s h => ⟨fun hend => ?missing, fun hend hreg => ?illegal, fun hend r hr => ?result⟩
  case missing => exact ⟨_, h.step_of_missing_operand hend, rfl, rfl⟩
  case illegal => exact ⟨_, h.step_of_not_wellFormed hend (validReg_eq_false_iff.mpr hreg), rfl, rfl⟩
  case result =>
    exact ⟨_, h.step_prn hend hr, State.out_emit s _, State.outputLines_emit s _, fun _ => rfl, rfl, rfl, fun _ => rfl,
      h.running, rfl⟩

end Sys2Proof.Machine
end

section
/-! The ALU's sum and product (R100). -/

namespace Sys2Proof.Machine

/-- Settles O14: the ALU's results are the sum and the product of 8-bit words (`alu_add`, `alu_multiply`), which are
those of the integers modulo 2 ^ 8. -/
theorem aluWrapsModulo256 : Obligations.AluWrapsModulo256 := by
  unfold Obligations.AluWrapsModulo256
  refine fun a b => ⟨?sum, ?product⟩
  case sum => exact ⟨a + b, alu_add a b, BitVec.toNat_add a b⟩
  case product => exact ⟨a * b, alu_multiply a b, BitVec.toNat_mul a b⟩

end Sys2Proof.Machine
end

section
/-! JMP from fetch to result (R132), by what a step does at the opcode of any row with one register operand. -/

namespace Sys2Proof.Machine

/-- R52, R74: one legal register byte is all that an instruction of format R needs. -/
theorem wellFormed_assemble_of_format_r {m : Mnemonic} (hm : m.format = .r) (r : Reg) (b : Byte) :
    (assemble m r.byte b).wellFormed = true := by
  cases m
  case prn | push | pop | call | jmp | jeq | jne => exact validReg_byte r
  all_goals contradiction

/-- At the opcode of a row of format R whose operand byte is there and names a register, that row is executed on it. -/
theorem AtOpcode.step_of_register {m : Mnemonic} {s : State} (h : AtOpcode m s) (hm : m.format = .r)
    (hend : s.pc + m.operandCount ≤ 255) {r : Reg} (hr : s.mem.read (s.pc + 1) = r.byte) :
    step s = exec (assemble m r.byte (s.mem.read (s.pc + 2))) s := by
  rw [← hr]
  exact h.step_of_wellFormed hend (by rw [hr]; exact wellFormed_assemble_of_format_r hm r _)

/-- A JMP whose operand byte is there and names a register sets `pc` to that register's value. -/
theorem AtOpcode.step_jmp {s : State} (h : AtOpcode .jmp s) (hend : s.pc + 1 ≤ 255) {r : Reg}
    (hr : s.mem.read (s.pc + 1) = r.byte) : step s = .next (s.jump (s.reg r)) :=
  (h.step_of_register rfl hend hr).trans (exec_jmp r s)

/-- Settles O33: the two faults are those of the operand check; a JMP that passes it ends in the state
`AtOpcode.step_jmp` names, which differs from the old one in `pc` alone. -/
theorem jmpFromFetchToResult : Obligations.JmpFromFetchToResult := by
  unfold Obligations.JmpFromFetchToResult
  refine fun s h => ⟨fun hend => ?missing, fun hend hreg => ?illegal, fun hend r hr => ?result⟩
  case missing => exact ⟨_, h.step_of_missing_operand hend, rfl⟩
  case illegal => exact ⟨_, h.step_of_not_wellFormed hend (validReg_eq_false_iff.mpr hreg), rfl⟩
  case result =>
    exact ⟨_, h.step_jmp hend hr, State.pc_jump s _, State.reg_jump s _, State.flags_jump s _, fun _ => rfl,
      State.run_jump s _, State.out_jump s _, State.config_jump s _⟩

end Sys2Proof.Machine
end

section
/-! The compare function, flag by flag (R130). -/

namespace Sys2Proof.Machine

@[simp] theorem Flags.compare_l_iff (a b : Byte) : (Flags.compare a b).l = true ↔ a.toNat < b.toNat :=
  decide_eq_true_iff

@[simp] theorem Flags.compare_g_iff (a b : Byte) : (Flags.compare a b).g = true ↔ a.toNat > b.toNat :=
  decide_eq_true_iff

@[simp] theorem Flags.compare_e_iff (a b : Byte) : (Flags.compare a b).e = true ↔ a.toNat = b.toNat :=
  decide_eq_true_iff

/-- Settles O15: each flag is set by its own comparison, and of the three comparisons exactly one holds
(`Flags.compare_exactlyOne`). -/
theorem compareSetsExactlyOneFlag : Obligations.CompareSetsExactlyOneFlag := by
  unfold Obligations.CompareSetsExactlyOneFlag
  exact fun a b => ⟨Flags.compare_l_iff a b, Flags.compare_g_iff a b, Flags.compare_e_iff a b,
    Flags.compare_exactlyOne a b⟩

end Sys2Proof.Machine
end

section
/-! SUPPORT. R74, R153 at execution: a register byte above 7 ends any instruction in `InvalidRegister`. -/

namespace Sys2Proof.Machine

/-- What resolves an illegal register byte first goes no further. -/
theorem bind_regOperand_of_invalid {α : Type} {b : Byte} (h : validReg b = false) (f : Reg → Except FaultKind α) :
    (regOperand b >>= f) = .error .invalidRegister := by
  rw [regOperand_of_invalid b h]; rfl

/-- What resolves two register bytes first, one of them illegal, goes no further. -/
theorem bind_regOperand_regOperand_of_invalid {α : Type} {a b : Byte} (h : (validReg a && validReg b) = false)
    (f : Reg → Reg → Except FaultKind α) :
    (regOperand a >>= fun ra => regOperand b >>= fun rb => f ra rb) = .error .invalidRegister := by
  obtain ⟨r, rfl, ha⟩ | ⟨hinv, -⟩ := regOperand_cases a
  · rw [ha]
    exact bind_regOperand_of_invalid (by simpa using h) (f r)
  · exact bind_regOperand_of_invalid hinv _

/-- Every ill-formed instruction ends in `InvalidRegister`: resolving its register bytes is the first thing it does. -/
theorem exec_of_not_wellFormed {i : Instr} (h : i.wellFormed = false) (s : State) :
    exec i s = .next (s.raise .invalidRegister) := by
  cases i with
  | ldi | prn | push | pop | call | jmp | jeq | jne => exact congrArg s.commit (bind_regOperand_of_invalid h _)
  | add | mul | cmp => exact congrArg s.commit (bind_regOperand_regOperand_of_invalid h _)
  | ret | hlt => contradiction

end Sys2Proof.Machine
end

section
/-! StackUnderflow (R157): POP and RET raise it on the empty stack, and nothing else does. -/

namespace Sys2Proof.Machine

/-- The case of R157: SP is `STACK_TOP` and the instruction is one that pops. -/
def PopsEmptyStack (i : Instr) (s : State) : Prop :=
  s.sp = s.config.stackTop ∧ ((∃ b, i = .pop b) ∨ i = .ret)

theorem exec_pop_of_empty (r : Reg) {s : State} (h : s.sp = s.config.stackTop) :
    exec (.pop r.byte) s = .next (s.raise .stackUnderflow) := by
  rw [exec_pop, if_pos h]

theorem exec_ret_of_empty {s : State} (h : s.sp = s.config.stackTop) :
    exec .ret s = .next (s.raise .stackUnderflow) := by
  rw [exec_ret, if_pos h]

/-- A well-formed instruction that does not pop the empty stack goes on, halts, or ends in another fault: each case is
read off its equation in Laws/Exec.lean. -/
theorem exec_run_ne_stackUnderflow {i : Instr} (hi : i.wellFormed = true) {s : State} (hr : s.run = .running)
    (hne : ¬ PopsEmptyStack i s) : ∃ t, exec i s = .next t ∧ t.run ≠ .faulted .stackUnderflow := by
  revert hne
  apply wellFormed_cases i hi
  case ldi => exact fun r imm _ => ⟨_, exec_ldi r imm s, by simp [hr]⟩
  case prn => exact fun r _ => ⟨_, exec_prn r s, by simp [hr]⟩
  case add => exact fun ra rb _ => ⟨_, exec_add ra rb s, by simp [hr]⟩
  case mul => exact fun ra rb _ => ⟨_, exec_mul ra rb s, by simp [hr]⟩
  case push => exact fun r _ => ⟨_, exec_push r s, by split <;> simp [hr]⟩
  case pop =>
    intro r hne
    have hsp : s.sp ≠ s.config.stackTop := fun h => hne ⟨h, .inl ⟨_, rfl⟩⟩
    exact ⟨_, exec_pop r s, by rw [if_neg hsp]; split <;> simp [hr]⟩
  case call => exact fun r _ => ⟨_, exec_call r s, by split_ifs <;> simp [hr]⟩
  case ret =>
    intro hne
    have hsp : s.sp ≠ s.config.stackTop := fun h => hne ⟨h, .inr rfl⟩
    exact ⟨_, exec_ret s, by rw [if_neg hsp]; split <;> simp [hr]⟩
  case cmp => exact fun ra rb _ => ⟨_, exec_cmp ra rb s, by simp [hr]⟩
  case jmp => exact fun r _ => ⟨_, exec_jmp r s, by simp [hr]⟩
  case jeq => exact fun r _ => ⟨_, exec_jeq r s, by split <;> simp [hr]⟩
  case jne => exact fun r _ => ⟨_, exec_jne r s, by split <;> simp [hr]⟩
  case hlt => exact fun _ => ⟨_, exec_hlt s, by simp⟩

/-- An instruction, well formed or not, that ends in `StackUnderflow` popped the empty stack. -/
theorem popsEmptyStack_of_exec {i : Instr} {s t : State} (hr : s.run = .running) (h : exec i s = .next t)
    (ht : t.run = .faulted .stackUnderflow) : PopsEmptyStack i s := by
  by_contra hne
  cases hi : i.wellFormed with
  | true =>
    obtain ⟨u, hu, hrun⟩ := exec_run_ne_stackUnderflow hi hr hne
    cases h.symm.trans hu
    exact hrun ht
  | false =>
    cases h.symm.trans (exec_of_not_wellFormed hi s)
    cases ht

/-- No fetch ends in `StackUnderflow`: none of the decoder's rejections is one. -/
theorem fetchInstr_ne_stackUnderflow (s : State) : fetchInstr s ≠ .error .stackUnderflow := by
  obtain ⟨i, rest, -, h⟩ | ⟨e, -, h⟩ := fetchInstr_cases s
  · simp [h]
  · cases e <;> simp [h, decodeFault]

/-- A step that ends in `StackUnderflow` executed an instruction that popped the empty stack. -/
theorem popsEmptyStack_of_step {s t : State} (h : step s = .next t) (ht : t.run = .faulted .stackUnderflow) :
    ∃ i, fetchInstr s = .ok i ∧ PopsEmptyStack i s := by
  obtain ⟨hr, ⟨i, hfetch, hexec⟩ | ⟨k, hfetch, rfl⟩⟩ := step_cases s t h
  · exact ⟨i, hfetch, popsEmptyStack_of_exec hr hexec ht⟩
  · cases ht
    exact absurd hfetch (fetchInstr_ne_stackUnderflow s)

/-- Settles O37: POP and RET test the empty stack first; conversely `popsEmptyStack_of_exec`, and at a step the opcode
byte at `pc` is that of the instruction which popped. -/
theorem underflowExactlyAtEmptyStack : Obligations.UnderflowExactlyAtEmptyStack := by
  unfold Obligations.UnderflowExactlyAtEmptyStack
  refine fun s hr => ⟨fun hsp => ⟨fun r => ?pop, ?ret⟩, fun i t => popsEmptyStack_of_exec hr, fun t h ht => ?step⟩
  case pop => exact ⟨_, exec_pop_of_empty r hsp, State.run_raise s _⟩
  case ret => exact ⟨_, exec_ret_of_empty hsp, State.run_raise s _⟩
  case step =>
    obtain ⟨i, hfetch, hsp, ⟨b, rfl⟩ | rfl⟩ := popsEmptyStack_of_step h ht
    · exact ⟨hsp, .inl (read_pc_of_fetchInstr hfetch rfl)⟩
    · exact ⟨hsp, .inr (read_pc_of_fetchInstr hfetch rfl)⟩

end Sys2Proof.Machine
end

section
/-! SUPPORT. How many byte values are an opcode under an injective table (R55, R56). -/

namespace Sys2Proof

/-- The lookup finds a row exactly when one has the byte (R56). -/
theorem OpcodeMap.isSome_lookup {o : OpcodeMap} {op : Byte} : (o.lookup op).isSome = true ↔ ∃ m, o.byte m = op := by
  rw [Option.isSome_iff_ne_none, Ne, OpcodeMap.lookup_eq_none, not_forall_not]

/-- R55: the opcode bytes of an injective table are distinct. -/
theorem OpcodeMap.Injective.nodup_opcodes {o : OpcodeMap} (ho : o.Injective) :
    (Mnemonic.all.map fun m => (o.byte m).toNat).Nodup :=
  List.Nodup.map (fun _ _ h => ho.eq (BitVec.eq_of_toNat_eq h)) (by decide)

/-- The byte values that are an opcode are those of the thirteen rows, each once. -/
theorem OpcodeMap.Injective.perm_opcodes {o : OpcodeMap} (ho : o.Injective) :
    ((List.range 256).filter fun b => (o.lookup (BitVec.ofNat 8 b)).isSome).Perm
      (Mnemonic.all.map fun m => (o.byte m).toNat) := by
  rw [List.perm_ext_iff_of_nodup (List.nodup_range.filter _) ho.nodup_opcodes]
  intro b
  simp only [List.mem_filter, List.mem_range, OpcodeMap.isSome_lookup, List.mem_map]
  constructor
  · rintro ⟨hb, m, hm⟩
    exact ⟨m, m.mem_all, by rw [hm, BitVec.toNat_ofNat, Nat.mod_eq_of_lt hb]⟩
  · rintro ⟨m, -, rfl⟩
    exact ⟨(o.byte m).isLt, m, by simp⟩

/-- Under an injective table 256 - 13 byte values are no opcode. -/
theorem OpcodeMap.Injective.countP_isNone {o : OpcodeMap} (ho : o.Injective) :
    (List.range 256).countP (fun b => (o.lookup (BitVec.ofNat 8 b)).isNone) = 243 := by
  have hopcodes : (List.range 256).countP (fun b => (o.lookup (BitVec.ofNat 8 b)).isSome) = 13 := by
    rw [List.countP_eq_length_filter, ho.perm_opcodes.length_eq, List.length_map]; rfl
  have hall := List.length_eq_countP_add_countP (fun b => (o.lookup (BitVec.ofNat 8 b)).isSome) (l := List.range 256)
  simp only [List.length_range, hopcodes, Bool.not_eq_true, Option.isSome_eq_false_iff, Bool.decide_eq_true] at hall
  omega

end Sys2Proof
end

section
/-! UnknownOpcode (R155): what a step does at a byte that is no opcode. -/

namespace Sys2Proof.Machine

/-- R72: a running machine whose byte at `pc` is no opcode takes `UnknownOpcode`. -/
theorem step_of_unknown_opcode {s : State} (hr : s.run = .running) (hpc : s.pc ≤ 255)
    (hno : ∀ m, s.config.opc.byte m ≠ s.mem.read s.pc) : step s = .next (s.raise .unknownOpcode) :=
  step_of_fetch_error hr (by rw [fetchInstr_eq, if_neg (not_lt.mpr hpc), OpcodeMap.lookup_eq_none.mpr hno])

/-- R70, R161: there is no step after a fault. -/
theorem step_raise (s : State) (k : FaultKind) : step (s.raise k) = .fault (.noStepFaulted k) := rfl

/-- Settles O41: the step is the fault's, from which there is no further one; the bytes that are no opcode are counted
as those the thirteen distinct opcodes leave over. -/
theorem unknownOpcodeEndsTheRun : Obligations.UnknownOpcodeEndsTheRun := by
  unfold Obligations.UnknownOpcodeEndsTheRun
  refine ⟨fun s hr hpc hno => ?run, fun o ho => ho.countP_isNone⟩
  case run =>
    refine ⟨_, step_of_unknown_opcode hr hpc hno, State.run_raise s _, rfl, fun u h => ?_⟩
    rw [step_raise] at h
    cases h

end Sys2Proof.Machine
end

section
/-! What reset leaves (R180). -/

namespace Sys2Proof.Machine

/-- R180: reset puts `STACK_TOP` in SP and 0 in every other register. -/
@[simp] theorem State.reg_resetWith (top : Byte) (o : OpcodeMap) (r : Reg) :
    (State.resetWith top o).reg r = if r = spReg then top else 0 := by
  fin_cases r <;> rfl

/-- Settles O5, field by field from the rules for `State.resetWith`. -/
theorem resetLeavesSpecifiedValues : Obligations.ResetLeavesSpecifiedValues := by
  unfold Obligations.ResetLeavesSpecifiedValues
  intro top o
  have hmem (a : Nat) : (State.resetWith top o).mem.read a = 0 := by
    rw [State.mem_resetWith, Memory.read_nil]
  have hregs (r : Reg) (hr : r ≠ spReg) : (State.resetWith top o).reg r = 0 := by
    rw [State.reg_resetWith, if_neg hr]
  have hflags : (State.resetWith top o).flags.l = false ∧ (State.resetWith top o).flags.g = false ∧
      (State.resetWith top o).flags.e = false := by
    simp only [State.flags_resetWith, and_self]
  exact ⟨hmem, hregs, State.sp_resetWith top o, State.pc_resetWith top o, hflags,
    State.out_resetWith top o, State.run_resetWith top o⟩

end Sys2Proof.Machine
end

section
/-! Decoding and encoding as inverses (R50 to R56), and what the decoder rejects (R72 to R74). -/

namespace Sys2Proof

/-- R74: at a row's opcode whose operands are all there, what is left is to validate them. -/
theorem decode_of_take {o : OpcodeMap} (ho : o.Injective) {m : Mnemonic} {tail rest : List Byte} {b1 b2 : Byte}
    (h : takeOperands m.format tail = some (b1, b2, rest)) :
    decode o (o.byte m :: tail) =
      if (assemble m b1 b2).wellFormed then .ok (assemble m b1 b2, rest) else .error .invalidRegister := by
  simp only [decode, OpcodeMap.lookup_byte ho m, h]

/-- R73: at a row's opcode with an operand missing. -/
theorem decode_of_short {o : OpcodeMap} (ho : o.Injective) {m : Mnemonic} {tail : List Byte}
    (h : takeOperands m.format tail = none) : decode o (o.byte m :: tail) = .error .missingOperand := by
  simp only [decode, OpcodeMap.lookup_byte ho m, h]

/-- An encoding is read back whole, and then validated. -/
theorem decode_encode {o : OpcodeMap} (ho : o.Injective) (i : Instr) (rest : List Byte) :
    decode o (encode o i ++ rest) = if i.wellFormed then .ok (i, rest) else .error .invalidRegister := by
  obtain ⟨b1, b2, htake, hi⟩ := takeOperands_operandBytes i rest
  rw [encode, List.cons_append, decode_of_take ho htake, hi]

/-- R73: an operand byte is missing exactly when the bytes are fewer than the format has operands. -/
theorem takeOperands_eq_none_iff (f : Format) (tail : List Byte) :
    takeOperands f tail = none ↔ tail.length < f.operandCount := by
  rcases tail with _ | ⟨b1, _ | ⟨b2, tail⟩⟩ <;> cases f <;> simp [takeOperands, Format.operandCount]

/-- Settles O1: a well-formed instruction passes the validation that `decode_encode` leaves. -/
theorem decodeEncodeRoundTrip : Obligations.DecodeEncodeRoundTrip := by
  unfold Obligations.DecodeEncodeRoundTrip
  intro o i rest ho hwf
  rw [decode_encode ho, if_pos hwf]

/-- Settles O2: the decoder took the opcode byte of the row it found and the operand bytes of that row's format. -/
theorem decodedInstructionReencodes : Obligations.DecodedInstructionReencodes := by
  unfold Obligations.DecodedInstructionReencodes
  intro o bytes rest i h
  obtain ⟨op, tail, m, b1, b2, rfl, hlookup, htake, rfl, hwf⟩ := decode_ok h
  refine ⟨hwf, ?_⟩
  rw [encode, mnemonic_assemble, OpcodeMap.byte_of_lookup hlookup, List.cons_append, ← operandBytes_assemble htake]

/-- Settles O3: one clause for each check of the decoder, in its order. -/
theorem decodeRejectsByName : Obligations.DecodeRejectsByName := by
  unfold Obligations.DecodeRejectsByName
  refine ⟨fun o => rfl, fun o op tail hno => ?unknown, fun o m tail ho hshort => ?missing, fun o i rest ho hwf => ?illegal⟩
  case unknown => simp only [decode, OpcodeMap.lookup_eq_none.mpr hno]
  case missing => exact decode_of_short ho ((takeOperands_eq_none_iff m.format tail).mpr hshort)
  case illegal => rw [decode_encode ho, if_neg (ne_true_of_eq_false hwf)]

/-- Settles O4: the decoder is run on each of the nine words. -/
theorem writtenOutWordsDecode : Obligations.WrittenOutWordsDecode := by
  unfold Obligations.WrittenOutWordsDecode
  decide

end Sys2Proof
end

section
/-! SUPPORT. How the execution of a well-formed instruction can end, said once: its own effect, or one of the faults an
instruction can raise. What a step can do to each part of the state is read off it. -/

namespace Sys2Proof.Machine

/-- The faults of a well-formed instruction's execute step, each with its condition (R83, checks 5a to 5d). -/
inductive ExecFault (s : State) : Instr → FaultKind → Prop
  | pushOverflow (r : Reg) (h : ¬ s.inStackRegion (pushAddress s)) : ExecFault s (.push r.byte) .stackOverflow
  | callAtEnd (r : Reg) (h : 253 < s.pc) : ExecFault s (.call r.byte) .addressOutOfRange
  | callOverflow (r : Reg) (h : ¬ s.inStackRegion (pushAddress s)) : ExecFault s (.call r.byte) .stackOverflow
  | popEmpty (r : Reg) (h : s.sp = s.config.stackTop) : ExecFault s (.pop r.byte) .stackUnderflow
  | popAtEnd (r : Reg) (hne : s.sp ≠ s.config.stackTop) (h : s.sp.toNat = 255) :
      ExecFault s (.pop r.byte) .addressOutOfRange
  | retEmpty (h : s.sp = s.config.stackTop) : ExecFault s .ret .stackUnderflow
  | retAtEnd (hne : s.sp ≠ s.config.stackTop) (h : s.sp.toNat = 255) : ExecFault s .ret .addressOutOfRange

/-- How a well-formed instruction executed at `s` ends: the state of its own effect, or that of a fault. -/
inductive ExecEnd (s : State) : Instr → State → Prop
  | ldi (r : Reg) (imm : Byte) : ExecEnd s (.ldi r.byte imm) ((s.setReg r imm).advance 2)
  | prn (r : Reg) : ExecEnd s (.prn r.byte) ((s.emit (s.reg r)).advance 1)
  | add (ra rb : Reg) : ExecEnd s (.add ra.byte rb.byte) ((s.setReg ra (s.reg ra + s.reg rb)).advance 2)
  | mul (ra rb : Reg) : ExecEnd s (.mul ra.byte rb.byte) ((s.setReg ra (s.reg ra * s.reg rb)).advance 2)
  | push (r : Reg) (h : s.inStackRegion (pushAddress s)) :
      ExecEnd s (.push r.byte) ((pushed (s.reg r) s).advance 1)
  | pop (r : Reg) (hne : s.sp ≠ s.config.stackTop) (h : s.sp.toNat ≠ 255) :
      ExecEnd s (.pop r.byte) (((popped s).setReg r (s.mem.read s.sp.toNat)).advance 1)
  | call (r : Reg) (hpc : s.pc ≤ 253) (h : s.inStackRegion (pushAddress s)) :
      ExecEnd s (.call r.byte) ((pushed (BitVec.ofNat 8 (s.pc + 2)) s).jump (s.reg r))
  | ret (hne : s.sp ≠ s.config.stackTop) (h : s.sp.toNat ≠ 255) :
      ExecEnd s .ret ((popped s).jump (s.mem.read s.sp.toNat))
  | cmp (ra rb : Reg) :
      ExecEnd s (.cmp ra.byte rb.byte) ({ s with flags := Flags.compare (s.reg ra) (s.reg rb) }.advance 2)
  | jmp (r : Reg) : ExecEnd s (.jmp r.byte) (s.jump (s.reg r))
  | jeq (r : Reg) : ExecEnd s (.jeq r.byte) (if s.flags.e then s.jump (s.reg r) else s.advance 1)
  | jne (r : Reg) : ExecEnd s (.jne r.byte) (if s.flags.e then s.advance 1 else s.jump (s.reg r))
  | hlt : ExecEnd s .hlt s.halt
  | fault {i : Instr} {k : FaultKind} (h : ExecFault s i k) : ExecEnd s i (s.raise k)

/-- Every well-formed instruction ends in one of these ways: each case is its equation of Laws/Exec.lean. -/
theorem exec_ends {i : Instr} (hi : i.wellFormed = true) (s : State) : ∃ t, exec i s = .next t ∧ ExecEnd s i t := by
  apply wellFormed_cases i hi
  case ldi => exact fun r imm => ⟨_, exec_ldi r imm s, .ldi r imm⟩
  case prn => exact fun r => ⟨_, exec_prn r s, .prn r⟩
  case add => exact fun ra rb => ⟨_, exec_add ra rb s, .add ra rb⟩
  case mul => exact fun ra rb => ⟨_, exec_mul ra rb s, .mul ra rb⟩
  case push =>
    refine fun r => ⟨_, exec_push r s, ?_⟩
    split_ifs with h
    · exact .push r h
    · exact .fault (.pushOverflow r h)
  case pop =>
    refine fun r => ⟨_, exec_pop r s, ?_⟩
    split_ifs with hempty hend
    · exact .fault (.popEmpty r hempty)
    · exact .fault (.popAtEnd r hempty hend)
    · exact .pop r hempty hend
  case call =>
    refine fun r => ⟨_, exec_call r s, ?_⟩
    split_ifs with hend h
    · exact .fault (.callAtEnd r hend)
    · exact .call r (not_lt.mp hend) h
    · exact .fault (.callOverflow r h)
  case ret =>
    refine ⟨_, exec_ret s, ?_⟩
    split_ifs with hempty hend
    · exact .fault (.retEmpty hempty)
    · exact .fault (.retAtEnd hempty hend)
    · exact .ret hempty hend
  case cmp => exact fun ra rb => ⟨_, exec_cmp ra rb s, .cmp ra rb⟩
  case jmp => exact fun r => ⟨_, exec_jmp r s, .jmp r⟩
  case jeq => exact fun r => ⟨_, exec_jeq r s, .jeq r⟩
  case jne => exact fun r => ⟨_, exec_jne r s, .jne r⟩
  case hlt => exact ⟨_, exec_hlt s, .hlt⟩

/-- How a step ends: in the fault its fetch ended in, or as the well-formed instruction it fetched ends. -/
theorem step_ends {s t : State} (h : step s = .next t) :
    s.run = .running ∧
      ((∃ k, fetchInstr s = .error k ∧ t = s.raise k) ∨ ∃ i, fetchInstr s = .ok i ∧ ExecEnd s i t) := by
  obtain ⟨hr, ⟨i, hfetch, hexec⟩ | hfault⟩ := step_cases s t h
  · obtain ⟨hwf, -⟩ := fetchInstr_ok hfetch
    obtain ⟨u, hu, hend⟩ := exec_ends hwf s
    cases hexec.symm.trans hu
    exact ⟨hr, .inr ⟨i, hfetch, hend⟩⟩
  · exact ⟨hr, .inl hfault⟩

/-- The configuration is no part of any instruction's effect (R24). -/
theorem ExecEnd.config {s t : State} {i : Instr} (h : ExecEnd s i t) : t.config = s.config := by
  cases h with
  | jeq | jne => split <;> rfl
  | _ => rfl

/-- Where an instruction can leave `pc` (R15, R76): on itself, behind itself, or at a byte value. -/
theorem ExecEnd.pc {s t : State} {i : Instr} (h : ExecEnd s i t) :
    t.pc = s.pc ∨ t.pc = s.pc + 1 + i.mnemonic.operandCount ∨ ∃ b : Byte, t.pc = b.toNat := by
  cases h with
  | hlt | fault => exact .inl rfl
  | ldi | prn | add | mul | push | pop | cmp => exact .inr (.inl rfl)
  | call | ret | jmp => exact .inr (.inr ⟨_, rfl⟩)
  | jeq r => split; exacts [.inr (.inr ⟨_, rfl⟩), .inr (.inl rfl)]
  | jne r => split; exacts [.inr (.inl rfl), .inr (.inr ⟨_, rfl⟩)]

/-- What an instruction can do to memory (R46): nothing, the write of a push, or the clear of a pop. -/
theorem ExecEnd.mem {s t : State} {i : Instr} (h : ExecEnd s i t) :
    t.mem = s.mem ∨
      ((i.mnemonic = .push ∨ i.mnemonic = .call) ∧ s.inStackRegion (pushAddress s) ∧
        ∃ v, t.mem = s.mem.write (s.sp.toNat - 1) v) ∨
      ((i.mnemonic = .pop ∨ i.mnemonic = .ret) ∧ t.mem = s.mem.write s.sp.toNat 0) := by
  cases h with
  | push r hregion => exact .inr (.inl ⟨.inl rfl, hregion, _, rfl⟩)
  | call r hpc hregion => exact .inr (.inl ⟨.inr rfl, hregion, _, rfl⟩)
  | pop => exact .inr (.inr ⟨.inl rfl, rfl⟩)
  | ret => exact .inr (.inr ⟨.inr rfl, rfl⟩)
  | jeq | jne => left; split <;> rfl
  | _ => exact .inl rfl

/-- What an instruction can do to `run` (R22): nothing, the halt of HLT, or one of its faults; the last two leave all else
as it was. -/
theorem ExecEnd.run {s t : State} {i : Instr} (h : ExecEnd s i t) :
    t.run = s.run ∨ (i = .hlt ∧ t = s.halt) ∨ ∃ k, ExecFault s i k ∧ t = s.raise k := by
  cases h with
  | hlt => exact .inr (.inl ⟨rfl, rfl⟩)
  | fault hfault => exact .inr (.inr ⟨_, hfault, rfl⟩)
  | jeq | jne => left; split <;> rfl
  | _ => exact .inl rfl

end Sys2Proof.Machine
end

section
/-! SUPPORT. What a step can do to each part of the state, and the causes of the faults it can take. -/

namespace Sys2Proof.Machine

/-- Where each fault of a fetch comes from (R71 to R74). -/
theorem fetchInstr_error {s : State} {k : FaultKind} (h : fetchInstr s = .error k) :
    (k = .addressOutOfRange ∧
        (255 < s.pc ∨ ∃ m, s.mem.read s.pc = s.config.opc.byte m ∧ 255 < s.pc + m.operandCount)) ∨
      k = .unknownOpcode ∨ k = .invalidRegister := by
  rw [fetchInstr_eq] at h
  split at h
  · cases h; exact .inl ⟨rfl, .inl ‹_›⟩
  · split at h
    · cases h; exact .inr (.inl rfl)
    · rename_i m hlookup
      split at h
      · cases h; exact .inl ⟨rfl, .inr ⟨m, (OpcodeMap.byte_of_lookup hlookup).symm, ‹_›⟩⟩
      · split at h
        · cases h
        · cases h; exact .inr (.inr rfl)

/-- The causes of a fault in a cycle: its fetch ends in it, or the execution of the instruction it fetched. -/
def StepFault (s : State) (k : FaultKind) : Prop :=
  fetchInstr s = .error k ∨ ∃ i, fetchInstr s = .ok i ∧ ExecFault s i k

section
variable {s t : State} (h : step s = .next t)
include h

/-- R22: a machine runs on after a step, or the step was HLT's halt or a fault's; these two leave all else as it was. -/
theorem step_run : t.run = .running ∨ (fetchInstr s = .ok .hlt ∧ t = s.halt) ∨ ∃ k, StepFault s k ∧ t = s.raise k := by
  obtain ⟨hr, ⟨k, hfetch, rfl⟩ | ⟨i, hfetch, hend⟩⟩ := step_ends h
  · exact .inr (.inr ⟨k, .inl hfetch, rfl⟩)
  · obtain hrun | ⟨rfl, rfl⟩ | ⟨k, hfault, rfl⟩ := hend.run
    · exact .inl (hrun.trans hr)
    · exact .inr (.inl ⟨hfetch, rfl⟩)
    · exact .inr (.inr ⟨k, .inr ⟨i, hfetch, hfault⟩, rfl⟩)

/-- A step that ends in a fault has a cause for that fault, and changes nothing but `run`. -/
theorem step_faulted {k : FaultKind} (ht : t.run = .faulted k) : StepFault s k ∧ t = s.raise k := by
  obtain hrun | ⟨-, rfl⟩ | ⟨k', hcause, rfl⟩ := step_run h
  · cases hrun.symm.trans ht
  · cases ht
  · cases ht; exact ⟨hcause, rfl⟩

/-- R24: every step leaves the configuration as it was. -/
theorem step_config : t.config = s.config := by
  obtain ⟨-, ⟨k, -, rfl⟩ | ⟨i, -, hend⟩⟩ := step_ends h
  · rfl
  · exact hend.config

/-- R46: a step leaves memory as it was, or writes it by a push in the stack region, or clears the cell at SP by a pop. -/
theorem step_mem :
    t.mem = s.mem ∨
      ((s.mem.read s.pc = s.config.opc.push ∨ s.mem.read s.pc = s.config.opc.call) ∧
        s.inStackRegion (pushAddress s) ∧ ∃ v, t.mem = s.mem.write (s.sp.toNat - 1) v) ∨
      ((s.mem.read s.pc = s.config.opc.pop ∨ s.mem.read s.pc = s.config.opc.ret) ∧
        t.mem = s.mem.write s.sp.toNat 0) := by
  obtain ⟨-, ⟨k, -, rfl⟩ | ⟨i, hfetch, hend⟩⟩ := step_ends h
  · exact .inl rfl
  · obtain hmem | ⟨hm, hpush⟩ | ⟨hm, hpop⟩ := hend.mem
    · exact .inl hmem
    · exact .inr (.inl ⟨hm.imp (read_pc_of_fetchInstr hfetch) (read_pc_of_fetchInstr hfetch), hpush⟩)
    · exact .inr (.inr ⟨hm.imp (read_pc_of_fetchInstr hfetch) (read_pc_of_fetchInstr hfetch), hpop⟩)

/-- R17: a step leaves `pc` at most one past the last address, where the fetch left it. -/
theorem step_pc_le (hpc : s.pc ≤ 256) : t.pc ≤ 256 := by
  obtain ⟨-, ⟨k, -, rfl⟩ | ⟨i, hfetch, hend⟩⟩ := step_ends h
  · exact hpc
  · obtain ⟨-, hlast, -⟩ := fetchInstr_ok hfetch
    obtain hkept | hnext | ⟨b, hjump⟩ := hend.pc
    · omega
    · omega
    · have := b.isLt; omega

end

end Sys2Proof.Machine
end

section
/-! What every step keeps: the configuration (R24) and the invariant; where the memory it changes lies (R46), and what
that leaves of a cell outside the stack region over a whole run (R41). -/

namespace Sys2Proof.Machine

/-- Settles O11: `step_config`. -/
theorem configurationKeptByStep : Obligations.ConfigurationKeptByStep := by
  unfold Obligations.ConfigurationKeptByStep
  exact fun s t h => step_config h

/-- R104: no instruction raises `UnsupportedALUOperation`. -/
theorem ExecFault.ne_unsupported {s : State} {i : Instr} {k : FaultKind} (h : ExecFault s i k) :
    k ≠ .unsupportedALUOperation := by
  cases h <;> exact FaultKind.noConfusion

/-- R104: no cause of a fault raises `UnsupportedALUOperation`. -/
theorem StepFault.ne_unsupported {s : State} {k : FaultKind} (h : StepFault s k) : k ≠ .unsupportedALUOperation := by
  obtain hfetch | ⟨i, -, hexec⟩ := h
  · obtain ⟨rfl, -⟩ | rfl | rfl := fetchInstr_error hfetch <;> exact FaultKind.noConfusion
  · exact hexec.ne_unsupported

theorem step_run_ne_unsupported {s t : State} (h : step s = .next t) : t.run ≠ .faulted .unsupportedALUOperation :=
  fun ht => (step_faulted h ht).1.ne_unsupported rfl

/-- The cells a push or a pop writes exist, so every step keeps the canonical form. -/
theorem step_mem_wf {s t : State} (h : step s = .next t) (hs : s.mem.wf) : t.mem.wf := by
  have hsp := s.sp.isLt
  obtain hmem | ⟨-, -, v, hmem⟩ | ⟨-, hmem⟩ := step_mem h <;> rw [hmem]
  · exact hs
  · exact Memory.wf_write _ _ _ hs (by simp only [memSize]; omega)
  · exact Memory.wf_write _ _ _ hs hsp

/-- Settles O10, clause by clause of the invariant. -/
theorem invariantKeptByStep : Obligations.InvariantKeptByStep := by
  unfold Obligations.InvariantKeptByStep
  intro s t hs h
  exact {
    memory := step_mem_wf h hs.memory
    pc := step_pc_le h hs.pc
    flags := step_keeps_of_compare (fun a b => (Flags.compare_exactlyOne a b).atMostOne) h hs.flags
    config := step_config h ▸ hs.config
    alu := step_run_ne_unsupported h }

/-- Settles O51: `step_mem`, read at one address. -/
theorem memoryChangedOnlyThroughTheStack : Obligations.MemoryChangedOnlyThroughTheStack := by
  unfold Obligations.MemoryChangedOnlyThroughTheStack
  intro s t h a hne
  obtain hmem | ⟨hop, hregion, v, hmem⟩ | ⟨hop, hmem⟩ := step_mem h
  · rw [hmem] at hne; exact absurd rfl hne
  · left
    have ha : a = s.sp.toNat - 1 := by
      by_contra hother; exact hne (by rw [hmem, Memory.read_write, if_neg hother])
    rw [inStackRegion_iff, pushAddress] at hregion
    obtain ⟨hlow, hhigh⟩ := hregion
    exact ⟨hop, by rw [pushAddress]; omega, by omega, by omega⟩
  · right
    have ha : a = s.sp.toNat := by
      by_contra hother; exact hne (by rw [hmem, Memory.read_write, if_neg hother])
    exact ⟨hop, ha, by rw [hmem, Memory.read_write, if_pos ha]⟩

/-- A step keeps or clears a cell outside the stack region: what it changes otherwise lies in the region. -/
theorem step_read_outside_region {s t : State} (h : step s = .next t) {a : Nat}
    (ha : ¬ (s.config.progLen ≤ a ∧ a < s.config.stackTop.toNat)) : t.mem.read a = s.mem.read a ∨ t.mem.read a = 0 := by
  by_cases hne : t.mem.read a = s.mem.read a
  · exact .inl hne
  · obtain ⟨-, -, hregion⟩ | ⟨-, -, hzero⟩ := memoryChangedOnlyThroughTheStack s t h a hne
    · exact absurd hregion ha
    · exact .inr hzero

/-- On any machine, a run of `n + 1` steps that answers a state is a step and a run of `n`. -/
theorem core_run_succ {M : Host.Core} {n : Nat} {s t : M.State} :
    M.run (n + 1) s = .next t ↔ ∃ u, M.step s = .next u ∧ M.run n u = .next t := by
  rw [Host.Core.run]
  cases M.step s <;> simp

theorem runFor_zero (s : State) : runFor 0 s = .next s := rfl

theorem runFor_succ {n : Nat} {s t : State} :
    runFor (n + 1) s = .next t ↔ ∃ u, step s = .next u ∧ runFor n u = .next t :=
  core_run_succ (M := core)

/-- Settles O53, by induction on the number of steps: each keeps the region where it was, and keeps or clears the cell. -/
theorem outsideStackRegionOnlyCleared : Obligations.OutsideStackRegionOnlyCleared := by
  unfold Obligations.OutsideStackRegionOnlyCleared
  intro n
  induction n with
  | zero =>
    intro s t h a _
    cases h
    exact .inl rfl
  | succ n ih =>
    intro s t h a ha
    obtain ⟨u, hstep, hrun⟩ := runFor_succ.mp h
    obtain hkept | hzero := ih u t hrun a (by rwa [step_config hstep])
    · rw [hkept]; exact step_read_outside_region hstep ha
    · exact .inr hzero

end Sys2Proof.Machine
end

section
/-! The canonical form of memory determines it (the model's own form of R21). -/

namespace Sys2Proof.Machine

/-- A cell that does not read 0 is listed. -/
theorem Memory.mem_of_read_ne_zero {m : Memory} {a : Nat} (h : m.read a ≠ 0) : (a, m.read a) ∈ m := by
  induction m with
  | nil => exact absurd rfl h
  | cons c m ih =>
    obtain ⟨k, w⟩ := c
    by_cases hk : k = a
    · simp [Memory.read, hk]
    · rw [Memory.read, if_neg hk] at h ⊢
      exact List.mem_cons_of_mem _ (ih h)

/-- A listed cell reads as its entry, when no address is listed twice. -/
theorem Memory.read_of_mem {m : Memory} (h : m.Pairwise fun c d => c.1 < d.1) {c : Host.Cell} (hc : c ∈ m) :
    m.read c.1 = c.2 := by
  induction m with
  | nil => cases hc
  | cons d m ih =>
    obtain ⟨hd, hm⟩ := List.pairwise_cons.mp h
    rcases List.mem_cons.mp hc with rfl | hc
    · exact if_pos rfl
    · exact (if_neg (hd c hc).ne).trans (ih hm hc)

/-- The entries of a canonical memory are exactly its cells that do not read 0. -/
theorem Memory.mem_iff_of_wf {m : Memory} (h : m.wf) {c : Host.Cell} : c ∈ m ↔ c.2 ≠ 0 ∧ m.read c.1 = c.2 := by
  obtain ⟨hsorted, hcells⟩ := h
  constructor
  · exact fun hc => ⟨(hcells c hc).2, Memory.read_of_mem hsorted hc⟩
  · rintro ⟨hne, hread⟩
    have hmem : (c.1, m.read c.1) ∈ m := Memory.mem_of_read_ne_zero (by rwa [hread])
    rwa [hread] at hmem

/-- R30: an address that is no cell's reads 0. -/
theorem Memory.read_of_wf_of_le {m : Memory} (h : m.wf) {a : Nat} (ha : memSize ≤ a) : m.read a = 0 := by
  by_contra hne
  exact absurd (h.2 _ (Memory.mem_of_read_ne_zero hne)).1 (not_lt.mpr ha)

/-- Settles O12: the two list the same entries (`Memory.mem_iff_of_wf`), each by rising address. -/
theorem canonicalMemoriesThatReadAlikeAreEqual : Obligations.CanonicalMemoriesThatReadAlikeAreEqual := by
  unfold Obligations.CanonicalMemoriesThatReadAlikeAreEqual
  intro m m' h h' hread
  have hmem (c : Host.Cell) : c ∈ m ↔ c ∈ m' := by
    rw [Memory.mem_iff_of_wf h, Memory.mem_iff_of_wf h', hread]
  have hnodup {l : Memory} (hl : l.wf) : l.Nodup := hl.1.imp fun hlt heq => hlt.ne (congrArg Prod.fst heq)
  have hperm : m.Perm m' := (List.perm_ext_iff_of_nodup (hnodup h) (hnodup h')).mpr hmem
  exact hperm.eq_of_pairwise (fun _ _ _ _ hlt hgt => absurd hlt hgt.asymm) h.1 h'.1

end Sys2Proof.Machine
end

section
/-! Boot (R181, R182), and the invariant at reset and when a loaded program starts. -/

namespace Sys2Proof.Machine

/-- The state a program that fits is started in. -/
def bootedState (top : Byte) (o : OpcodeMap) (bytes : List Byte) : State :=
  { State.resetWith top o with
    mem := storeBytes [] 0 bytes, config := { stackTop := top, progLen := bytes.length, opc := o } }

/-- All that boot can do. -/
theorem boot_eq (top : Byte) (o : OpcodeMap) (bytes : List Byte) :
    boot top o bytes = if bytes.length ≤ memSize then some (bootedState top o bytes) else none := rfl

/-- R182: byte `k` is at address `k`, and every other address reads 0. -/
theorem read_bootedState (top : Byte) (o : OpcodeMap) {bytes : List Byte} (hlen : bytes.length ≤ memSize) (a : Nat) :
    (bootedState top o bytes).mem.read a = bytes.getD a 0 := by
  change (storeBytes [] 0 bytes).read a = _
  by_cases ha : a < memSize
  · rw [Memory.read_storeBytes _ _ _ _ ha]
    split
    next hk => exact (List.getD_eq_getElem bytes 0 hk.2).symm
    next hk => exact (List.getD_eq_default bytes 0 (not_lt.mp fun hlt => hk ⟨Nat.zero_le a, hlt⟩)).symm
  · rw [Memory.read_of_wf_of_le (Memory.wf_storeBytes bytes [] 0 Memory.wf_nil) (not_lt.mp ha),
      List.getD_eq_default _ _ (hlen.trans (not_lt.mp ha))]

/-- Settles O6: `boot_eq`, with the memory by `read_bootedState` and all else as reset left it. -/
theorem bootLoadsProgram : Obligations.BootLoadsProgram := by
  unfold Obligations.BootLoadsProgram
  refine fun top o bytes => ⟨fun hlen => ?fits, fun hlen => ?tooLong⟩
  case fits =>
    exact ⟨bootedState top o bytes, by rw [boot_eq, if_pos hlen], read_bootedState top o hlen, rfl, fun _ => rfl, rfl, rfl,
      rfl, rfl⟩
  case tooLong => rw [boot_eq, if_neg (not_le.mpr hlen)]

/-- The invariant holds of a bootedState program under an injective table. -/
theorem bootedState_inv (top : Byte) {o : OpcodeMap} (ho : o.Injective) {bytes : List Byte}
    (hlen : bytes.length ≤ memSize) : (bootedState top o bytes).Inv where
  memory := Memory.wf_storeBytes bytes [] 0 Memory.wf_nil
  pc := Nat.zero_le _
  flags := Nat.zero_le _
  config := ⟨hlen, ho⟩
  alu := RunState.noConfusion

/-- Reset is booting the empty program, so the invariant holds there too. -/
theorem resetWith_inv (top : Byte) {o : OpcodeMap} (ho : o.Injective) : (State.resetWith top o).Inv :=
  bootedState_inv top ho (bytes := []) (Nat.zero_le _)

/-- Settles O8: `resetWith_inv`, for the default parameters too. -/
theorem invariantHoldsAtReset : Obligations.InvariantHoldsAtReset := by
  unfold Obligations.InvariantHoldsAtReset
  exact ⟨resetWith_inv _ OpcodeMap.default_injective, fun top o ho => resetWith_inv top ho⟩

/-- Settles O9: a boot that starts the machine is of a program that fits. -/
theorem invariantHoldsAfterBoot : Obligations.InvariantHoldsAfterBoot := by
  unfold Obligations.InvariantHoldsAfterBoot
  intro top o bytes s ho h
  rw [boot_eq] at h
  split at h
  · cases h; exact bootedState_inv top ho ‹_›
  · cases h

end Sys2Proof.Machine
end

section
/-! SUPPORT. Frames of the register write, of a push in the stack region and of a pop, in the words of the claims. -/

namespace Sys2Proof.Machine

theorem sameRegsBut_setReg (r : Reg) (v : Byte) (s : State) : SameRegsBut [r] s (s.setReg r v) := by
  intro q hq
  rw [State.reg_setReg, if_neg (List.ne_of_not_mem_cons hq)]

theorem reg_setReg_same (r : Reg) (v : Byte) (s : State) : (s.setReg r v).reg r = v := by
  rw [State.reg_setReg, if_pos rfl]

theorem toNat_pushAddress (s : State) : (pushAddress s).toNat = s.sp.toNat - 1 := by
  rw [pushAddress]; omega

/-- R110: SP does not wrap below 0 at a push that is not refused. -/
theorem sp_pos_of_inStackRegion {s : State} (h : s.inStackRegion (pushAddress s)) : 0 < s.sp.toNat := by
  rw [inStackRegion_iff, pushAddress] at h
  omega

theorem pushAddress_of_inStackRegion {s : State} (h : s.inStackRegion (pushAddress s)) :
    pushAddress s = (s.sp.toNat - 1 : Nat) := by
  have := sp_pos_of_inStackRegion h
  rw [pushAddress]
  omega

/-- All that a push which succeeds says. -/
theorem push_ok_iff {v : Byte} {s t : State} : push v s = .ok t ↔ s.inStackRegion (pushAddress s) ∧ t = pushed v s := by
  rw [push_eq]
  split
  next h => exact ⟨fun hok => ⟨h, by cases hok; rfl⟩, fun ⟨_, ht⟩ => ht ▸ rfl⟩
  next h => exact ⟨fun hok => (nomatch hok), fun ⟨hregion, _⟩ => absurd hregion h⟩

section
variable {s : State} (h : s.inStackRegion (pushAddress s)) (v : Byte)

theorem read_pushed_same : (pushed v s).mem.read (pushAddress s).toNat = v := by
  rw [mem_pushed, toNat_pushAddress, Memory.read_write, if_pos rfl]

theorem sameRegsBut_pushed : SameRegsBut [spReg] s (pushed v s) := sameRegsBut_setReg spReg _ s

include h

theorem toNat_sp_pushed : (pushed v s).sp.toNat = s.sp.toNat - 1 := by
  have hpos := sp_pos_of_inStackRegion h
  have hlt := s.sp.isLt
  rw [sp_pushed, BitVec.toNat_sub, show (1 : Byte).toNat = 1 from rfl]
  omega

theorem sameMemoryBut_pushed : SameMemoryBut (pushAddress s) s (pushed v s) := by
  rw [pushAddress_of_inStackRegion h]
  exact sameMemoryBut_write _ v s

end

section
variable (s : State)

theorem read_popped_same : (popped s).mem.read s.sp.toNat = 0 := by
  rw [mem_popped, Memory.read_write, if_pos rfl]

theorem sameRegsBut_popped : SameRegsBut [spReg] s (popped s) := sameRegsBut_setReg spReg _ s

theorem sameMemoryBut_popped : SameMemoryBut s.sp.toNat s (popped s) := sameMemoryBut_write _ 0 s

/-- R111: SP does not wrap past 255 at a pop that is not refused. -/
theorem toNat_sp_popped {s : State} (h : s.sp.toNat ≠ 255) : (popped s).sp.toNat = s.sp.toNat + 1 := by
  have hlt := s.sp.isLt
  rw [sp_popped, BitVec.toNat_add, show (1 : Byte).toNat = 1 from rfl]
  omega

end

end Sys2Proof.Machine
end

section
/-! What each instruction does when it completes, with its frame: the equation of Laws/Exec.lean names the state, and the
frames of its operations say what that state holds. -/

namespace Sys2Proof.Machine

/-- Settles O16. -/
theorem ldiCompletes : Obligations.LdiCompletes := by
  unfold Obligations.LdiCompletes
  intro r imm s
  exact ⟨_, exec_ldi r imm s, reg_setReg_same r imm s, sameRegsBut_setReg r imm s, rfl, rfl, fun _ => rfl, rfl, rfl, rfl⟩

/-- Settles O17. -/
theorem prnCompletes : Obligations.PrnCompletes := by
  unfold Obligations.PrnCompletes
  intro r s
  exact ⟨_, exec_prn r s, State.out_emit s _, fun _ => rfl, rfl, rfl, fun _ => rfl, rfl, rfl⟩

/-- Settles O18: the sum of 8-bit words is that of the integers modulo 2 ^ 8. -/
theorem addCompletes : Obligations.AddCompletes := by
  unfold Obligations.AddCompletes
  intro ra rb s
  refine ⟨_, exec_add ra rb s, ?sum, sameRegsBut_setReg ra _ s, rfl, rfl, fun _ => rfl, rfl, rfl, rfl⟩
  case sum => rw [State.reg_advance, reg_setReg_same]; exact BitVec.toNat_add _ _

/-- Settles O19: the product of 8-bit words is that of the integers modulo 2 ^ 8. -/
theorem mulCompletes : Obligations.MulCompletes := by
  unfold Obligations.MulCompletes
  intro ra rb s
  refine ⟨_, exec_mul ra rb s, ?product, sameRegsBut_setReg ra _ s, rfl, rfl, fun _ => rfl, rfl, rfl, rfl⟩
  case product => rw [State.reg_advance, reg_setReg_same]; exact BitVec.toNat_mul _ _

/-- Settles O20: SP - 1 is in the stack region, so the push is not refused. -/
theorem pushCompletes : Obligations.PushCompletes := by
  unfold Obligations.PushCompletes
  intro r s hlow hhigh
  have hregion := (inStackRegion_iff s _).mpr ⟨hlow, hhigh⟩
  refine ⟨(pushed (s.reg r) s).advance 1, by rw [exec_push, if_pos hregion], ?sp, read_pushed_same _,
    sameMemoryBut_pushed hregion _, sameRegsBut_pushed (s.reg r), rfl, rfl, rfl, rfl, rfl⟩
  case sp => rw [State.sp_advance, toNat_sp_pushed hregion, pushAddress_of_inStackRegion hregion]

/-- Settles O21: the register is written after the pop, over SP itself if it is R7. -/
theorem popCompletes : Obligations.PopCompletes := by
  unfold Obligations.PopCompletes
  intro r s hempty hend
  refine ⟨((popped s).setReg r (s.mem.read s.sp.toNat)).advance 1, by rw [exec_pop, if_neg hempty, if_neg hend],
    reg_setReg_same r _ _, ?sp, read_popped_same s, sameMemoryBut_popped s, ?regs, rfl, rfl, rfl, rfl, rfl⟩
  case sp =>
    intro hr
    rw [State.sp_advance, State.sp_eq_reg, State.reg_setReg, if_neg hr.symm]
    exact toNat_sp_popped hend
  case regs =>
    intro q hq
    rw [List.mem_cons, not_or] at hq
    obtain ⟨hqr, hqsp⟩ := hq
    rw [State.reg_advance, State.reg_setReg, if_neg hqr, sameRegsBut_popped s q hqsp]

/-- Settles O22: the return address fits a cell and SP - 1 is in the stack region, so neither check refuses. -/
theorem callCompletes : Obligations.CallCompletes := by
  unfold Obligations.CallCompletes
  intro r s hpc hlow hhigh
  have hregion := (inStackRegion_iff s _).mpr ⟨hlow, hhigh⟩
  refine ⟨(pushed (BitVec.ofNat 8 (s.pc + 2)) s).jump (s.reg r),
    by rw [exec_call, if_neg (by omega), if_pos hregion], rfl, ?sp, ?entry, sameMemoryBut_pushed hregion _,
    sameRegsBut_pushed (BitVec.ofNat 8 (s.pc + 2)), rfl, rfl, rfl, rfl⟩
  case sp => rw [State.sp_jump, toNat_sp_pushed hregion, pushAddress_of_inStackRegion hregion]
  case entry => rw [State.mem_jump, read_pushed_same, BitVec.toNat_ofNat]; omega

/-- Settles O23. -/
theorem retCompletes : Obligations.RetCompletes := by
  unfold Obligations.RetCompletes
  intro s hempty hend
  exact ⟨(popped s).jump (s.mem.read s.sp.toNat), by rw [exec_ret, if_neg hempty, if_neg hend], rfl, toNat_sp_popped hend,
    read_popped_same s, sameMemoryBut_popped s, sameRegsBut_popped s, rfl, rfl, rfl, rfl⟩

/-- Settles O24: the flags are the comparison of the two registers, each flag by its own rule. -/
theorem cmpCompletes : Obligations.CmpCompletes := by
  unfold Obligations.CmpCompletes
  intro ra rb s
  exact ⟨_, exec_cmp ra rb s, Flags.compare_l_iff _ _, Flags.compare_g_iff _ _, Flags.compare_e_iff _ _, fun _ => rfl, rfl,
    fun _ => rfl, rfl, rfl, rfl⟩

/-- Settles O25. -/
theorem jmpCompletes : Obligations.JmpCompletes := by
  unfold Obligations.JmpCompletes
  intro r s
  exact ⟨_, exec_jmp r s, State.pc_jump s _, State.reg_jump s _, rfl, fun _ => rfl, rfl, rfl, rfl⟩

/-- Settles O26: taken or not, by Equal. -/
theorem jeqCompletes : Obligations.JeqCompletes := by
  unfold Obligations.JeqCompletes
  intro r s
  refine ⟨_, exec_jeq r s, ?_⟩
  cases he : s.flags.e with
  | true => exact ⟨fun _ => rfl, Bool.noConfusion, fun _ => rfl, rfl, fun _ => rfl, rfl, rfl, rfl⟩
  | false => exact ⟨Bool.noConfusion, fun _ => rfl, fun _ => rfl, rfl, fun _ => rfl, rfl, rfl, rfl⟩

/-- Settles O27: taken or not, by Equal. -/
theorem jneCompletes : Obligations.JneCompletes := by
  unfold Obligations.JneCompletes
  intro r s
  refine ⟨_, exec_jne r s, ?_⟩
  cases he : s.flags.e with
  | true => exact ⟨Bool.noConfusion, fun _ => rfl, fun _ => rfl, rfl, fun _ => rfl, rfl, rfl, rfl⟩
  | false => exact ⟨fun _ => rfl, Bool.noConfusion, fun _ => rfl, rfl, fun _ => rfl, rfl, rfl, rfl⟩

/-- Settles O28. -/
theorem hltCompletes : Obligations.HltCompletes := by
  unfold Obligations.HltCompletes
  exact fun s => ⟨_, exec_hlt s, rfl, rfl, fun _ => rfl, rfl, fun _ => rfl, rfl, rfl⟩

end Sys2Proof.Machine
end

section
/-! Faults and the halt (R77, R78, R150 to R157): where each can come from, and that it changes `run` alone. -/

namespace Sys2Proof.Machine

/-- Settles O35: `exec_of_not_wellFormed`. -/
theorem illFormedInstructionRaisesInvalidRegister : Obligations.IllFormedInstructionRaisesInvalidRegister := by
  unfold Obligations.IllFormedInstructionRaisesInvalidRegister
  exact fun i s hi => exec_of_not_wellFormed hi s

/-- Settles O36: SP - 1 is not in the stack region, which CALL tests after its return address. -/
theorem pushAndCallOverflow : Obligations.PushAndCallOverflow := by
  unfold Obligations.PushAndCallOverflow
  intro r s h
  have hregion : ¬ s.inStackRegion (pushAddress s) := by rw [inStackRegion_iff]; omega
  refine ⟨?push, fun hpc => ?call⟩
  case push => rw [exec_push, if_neg hregion]
  case call => rw [exec_call, if_neg (by omega), if_neg hregion]

/-- Settles O38: CALL tests its return address first; POP and RET test SP = 255 after the empty stack. -/
theorem executeTimeAddressFaults : Obligations.ExecuteTimeAddressFaults := by
  unfold Obligations.ExecuteTimeAddressFaults
  refine fun r s => ⟨fun hpc => ?call, fun hend hempty => ⟨?pop, ?ret⟩⟩
  case call => rw [exec_call, if_pos (by omega)]
  case pop => rw [exec_pop, if_neg hempty, if_pos hend]
  case ret => rw [exec_ret, if_neg hempty, if_pos hend]

/-- Settles O39: the causes of the fault are those of the fetch, and of CALL, POP and RET at execution. -/
theorem addressOutOfRangeOnlyInListedCases : Obligations.AddressOutOfRangeOnlyInListedCases := by
  unfold Obligations.AddressOutOfRangeOnlyInListedCases
  intro s t _ h ht
  have htop (hne : s.sp ≠ s.config.stackTop) (hend : s.sp.toNat = 255) : s.config.stackTop.toNat ≠ 255 := fun htop =>
    hne (BitVec.eq_of_toNat_eq (hend.trans htop.symm))
  obtain ⟨hfetch | ⟨i, hfetch, hexec⟩, -⟩ := step_faulted h ht
  · obtain ⟨-, hpc | hoperand⟩ | hother | hother := fetchInstr_error hfetch
    · exact .inl hpc
    · exact .inr (.inl hoperand)
    all_goals cases hother
  · cases hexec with
    | callAtEnd r hpc =>
      obtain ⟨-, hlast, -⟩ := fetchInstr_ok hfetch
      rw [operandCount_call] at hlast
      exact .inr (.inr (.inl ⟨read_pc_of_fetchInstr hfetch rfl, by omega⟩))
    | popAtEnd r hne hend =>
      exact .inr (.inr (.inr ⟨.inl (read_pc_of_fetchInstr hfetch rfl), hend, htop hne hend⟩))
    | retAtEnd hne hend =>
      exact .inr (.inr (.inr ⟨.inr (read_pc_of_fetchInstr hfetch rfl), hend, htop hne hend⟩))

/-- No instruction, well formed or not, ends in `UnsupportedALUOperation`. -/
theorem exec_run_ne_unsupported {i : Instr} {s t : State} (hr : s.run = .running) (h : exec i s = .next t) :
    t.run ≠ .faulted .unsupportedALUOperation := by
  cases hi : i.wellFormed with
  | true =>
    obtain ⟨u, hu, hend⟩ := exec_ends hi s
    cases h.symm.trans hu
    obtain hrun | ⟨-, rfl⟩ | ⟨k, hfault, rfl⟩ := hend.run
    · rw [hrun, hr]; exact RunState.noConfusion
    · exact RunState.noConfusion
    · exact fun hk => hfault.ne_unsupported (RunState.faulted.inj hk)
  | false =>
    cases h.symm.trans (exec_of_not_wellFormed hi s)
    exact fun hk => FaultKind.noConfusion (RunState.faulted.inj hk)

/-- Settles O40: the ALU's other requests fail, and neither an execution nor a step has that fault among its causes. -/
theorem unsupportedAluOperationNeverRaised : Obligations.UnsupportedAluOperationNeverRaised := by
  unfold Obligations.UnsupportedAluOperationNeverRaised
  exact ⟨fun _ _ _ => rfl, fun _ _ _ => exec_run_ne_unsupported, fun _ _ => step_run_ne_unsupported⟩

/-- Settles O42: `step_faulted`. -/
theorem faultsArePrecise : Obligations.FaultsArePrecise := by
  unfold Obligations.FaultsArePrecise
  exact fun s t k h ht => (step_faulted h ht).2

/-- Settles O43: a well-formed instruction ends as `exec_ends` says, an ill-formed one in `InvalidRegister`. -/
theorem everyInstructionAnswersANextState : Obligations.EveryInstructionAnswersANextState := by
  unfold Obligations.EveryInstructionAnswersANextState
  intro i s
  cases hi : i.wellFormed with
  | true => exact (exec_ends hi s).imp fun _ => And.left
  | false => exact ⟨_, exec_of_not_wellFormed hi s⟩

/-- A running machine always has a next state: that of its fetch's fault, or of the instruction it executes. -/
theorem exists_step_of_running {s : State} (hr : s.run = .running) : ∃ t, step s = .next t := by
  cases hfetch : fetchInstr s with
  | error k => exact ⟨_, step_of_fetch_error hr hfetch⟩
  | ok i => rw [step_of_fetch_ok hr hfetch]; exact everyInstructionAnswersANextState i s

/-- Settles O44: a step needs `Running`, and there is one then; the terminal states answer their own stop. -/
theorem stepsExactlyWhileRunning : Obligations.StepsExactlyWhileRunning := by
  unfold Obligations.StepsExactlyWhileRunning
  refine fun s => ⟨⟨fun ⟨t, h⟩ => (step_cases s t h).1, exists_step_of_running⟩, fun hr => ?halted, fun k hr => ?faulted⟩
  case halted => rw [step, hr]
  case faulted => rw [step, hr]

/-- Settles O54: of the ways a step can leave `run`, only HLT's is `Halted`. -/
theorem haltedOnlyByHlt : Obligations.HaltedOnlyByHlt := by
  unfold Obligations.HaltedOnlyByHlt
  intro s t h ht
  obtain hrun | ⟨hfetch, rfl⟩ | ⟨k, -, rfl⟩ := step_run h
  · cases hrun.symm.trans ht
  · exact ⟨read_pc_of_fetchInstr hfetch rfl, rfl⟩
  · cases ht

end Sys2Proof.Machine
end

section
/-! LDI, ADD, MUL, CMP, JEQ and JNE from fetch to result: the faults are those of the operand check, and past it the step
is the execution whose result and frame the completion statements give. -/

namespace Sys2Proof.Machine

theorem stepFaults_of_raise {s : State} {k : FaultKind} (h : step s = .next (s.raise k)) : StepFaults s k := ⟨_, h, rfl⟩

/-- Under an injective table a machine is at one row's opcode. -/
theorem AtOpcode.unique {m m' : Mnemonic} {s : State} (h : AtOpcode m s) (h' : AtOpcode m' s) : m = m' := by
  obtain ⟨-, hinj, -, hread⟩ := h
  obtain ⟨-, -, -, hread'⟩ := h'
  exact hinj.eq (hread.symm.trans hread')

/-- R52, R74: an instruction of format RR needs two legal register bytes. -/
theorem wellFormed_assemble_of_format_rr {m : Mnemonic} (hm : m.format = .rr) (a b : Byte) :
    (assemble m a b).wellFormed = (validReg a && validReg b) := by
  cases m
  case add | mul | cmp => rfl
  all_goals contradiction

/-- R74: an instruction of format R needs a legal register byte. -/
theorem not_wellFormed_assemble_of_format_r {m : Mnemonic} (hm : m.format = .r) {a : Byte} (ha : validReg a = false)
    (b : Byte) : (assemble m a b).wellFormed = false := by
  cases m
  case prn | push | pop | call | jmp | jeq | jne => exact ha
  all_goals contradiction

section
variable {m : Mnemonic} {s : State} (h : AtOpcode m s)
include h

/-- At the opcode of a row of format RR whose operand bytes are there and name registers, that row is executed on them. -/
theorem AtOpcode.step_of_registers (hm : m.format = .rr) (hend : s.pc + m.operandCount ≤ 255) {ra rb : Reg}
    (ha : s.mem.read (s.pc + 1) = ra.byte) (hb : s.mem.read (s.pc + 2) = rb.byte) :
    step s = exec (assemble m ra.byte rb.byte) s := by
  rw [← ha, ← hb]
  refine h.step_of_wellFormed hend ?_
  rw [wellFormed_assemble_of_format_rr hm, ha, hb, validReg_byte, validReg_byte, Bool.and_self]

/-- At the opcode of a row of format RR, an operand byte above 7 is illegal. -/
theorem AtOpcode.stepFaults_of_illegal_registers (hm : m.format = .rr) (hend : s.pc + m.operandCount ≤ 255)
    (hreg : (s.mem.read (s.pc + 1)).toNat > 7 ∨ (s.mem.read (s.pc + 2)).toNat > 7) : StepFaults s .invalidRegister := by
  refine stepFaults_of_raise (h.step_of_not_wellFormed hend ?_)
  rw [wellFormed_assemble_of_format_rr hm, Bool.and_eq_false_iff]
  exact hreg.imp validReg_eq_false_iff.mpr validReg_eq_false_iff.mpr

/-- At the opcode of a row of format R, an operand byte above 7 is illegal. -/
theorem AtOpcode.stepFaults_of_illegal_register (hm : m.format = .r) (hend : s.pc + m.operandCount ≤ 255)
    (hreg : (s.mem.read (s.pc + 1)).toNat > 7) : StepFaults s .invalidRegister :=
  stepFaults_of_raise (h.step_of_not_wellFormed hend
    (not_wellFormed_assemble_of_format_r hm (validReg_eq_false_iff.mpr hreg) _))

theorem AtOpcode.stepFaults_of_missing_operand (hend : s.pc + m.operandCount > 255) :
    StepFaults s .addressOutOfRange :=
  stepFaults_of_raise (h.step_of_missing_operand hend)

end

/-- An LDI whose operand bytes are there and whose first names a register is executed on them. -/
theorem AtOpcode.step_ldi {s : State} (h : AtOpcode .ldi s) (hend : s.pc + 2 ≤ 255) {r : Reg}
    (hr : s.mem.read (s.pc + 1) = r.byte) : step s = exec (.ldi r.byte (s.mem.read (s.pc + 2))) s := by
  rw [← hr]
  exact h.step_of_wellFormed hend (by rw [hr]; exact validReg_byte r)

/-- Settles O29. -/
theorem ldiFromFetchToResult : Obligations.LdiFromFetchToResult := by
  unfold Obligations.LdiFromFetchToResult
  refine fun s h => ⟨h.stepFaults_of_missing_operand, fun hend hreg => ?illegal, fun hend r hr => ?result⟩
  case illegal => exact stepFaults_of_raise (h.step_of_not_wellFormed hend (validReg_eq_false_iff.mpr hreg))
  case result =>
    rw [h.step_ldi hend hr]
    exact ldiCompletes r _ s

/-- Settles O31: a machine is not at both opcodes, so the result is the one of the row it is at. -/
theorem addMulFromFetchToResult : Obligations.AddMulFromFetchToResult := by
  unfold Obligations.AddMulFromFetchToResult
  intro s h
  obtain hadd | hmul := h
  · refine ⟨hadd.stepFaults_of_missing_operand, hadd.stepFaults_of_illegal_registers rfl, fun hend ra rb ha hb => ?_⟩
    rw [hadd.step_of_registers rfl hend ha hb]
    obtain ⟨t, hexec, hsum, hframe⟩ := addCompletes ra rb s
    exact ⟨t, hexec, fun _ => hsum, fun hmul => absurd (hadd.unique hmul) (by decide), hframe⟩
  · refine ⟨hmul.stepFaults_of_missing_operand, hmul.stepFaults_of_illegal_registers rfl, fun hend ra rb ha hb => ?_⟩
    rw [hmul.step_of_registers rfl hend ha hb]
    obtain ⟨t, hexec, hproduct, hframe⟩ := mulCompletes ra rb s
    exact ⟨t, hexec, fun hadd => absurd (hmul.unique hadd) (by decide), fun _ => hproduct, hframe⟩

/-- Settles O32. -/
theorem cmpFromFetchToResult : Obligations.CmpFromFetchToResult := by
  unfold Obligations.CmpFromFetchToResult
  refine fun s h => ⟨h.stepFaults_of_missing_operand, h.stepFaults_of_illegal_registers rfl, fun hend ra rb ha hb => ?_⟩
  rw [h.step_of_registers rfl hend ha hb]
  exact ⟨_, exec_cmp ra rb s, Flags.compare_l_iff _ _, Flags.compare_g_iff _ _, Flags.compare_e_iff _ _,
    Flags.compare_exactlyOne _ _, fun _ => rfl, rfl, fun _ => rfl, rfl, rfl, rfl⟩

/-- The two clauses of a jump on Equal, as one value of `pc`. -/
theorem eq_ite_of_cases {c : Bool} {x a b : Nat} (ht : c = true → x = a) (hf : c = false → x = b) :
    x = if c then a else b := by
  cases c with
  | true => exact ht rfl
  | false => exact hf rfl

/-- Settles O34: a machine is not at both opcodes, so the target is chosen as the row it is at says. -/
theorem jeqJneFromFetchToResult : Obligations.JeqJneFromFetchToResult := by
  unfold Obligations.JeqJneFromFetchToResult
  intro s h
  obtain hjeq | hjne := h
  · refine ⟨hjeq.stepFaults_of_missing_operand, hjeq.stepFaults_of_illegal_register rfl, fun hend r hr => ?_⟩
    rw [hjeq.step_of_register rfl hend hr]
    obtain ⟨t, hexec, htaken, hnot, hframe⟩ := jeqCompletes r s
    exact ⟨t, hexec, fun _ => eq_ite_of_cases htaken hnot, fun hjne => absurd (hjeq.unique hjne) (by decide), hframe⟩
  · refine ⟨hjne.stepFaults_of_missing_operand, hjne.stepFaults_of_illegal_register rfl, fun hend r hr => ?_⟩
    rw [hjne.step_of_register rfl hend hr]
    obtain ⟨t, hexec, htaken, hnot, hframe⟩ := jneCompletes r s
    exact ⟨t, hexec, fun hjeq => absurd (hjne.unique hjeq) (by decide), fun _ => eq_ite_of_cases hnot htaken, hframe⟩

end Sys2Proof.Machine
end

section
/-! The step as the execution of what the decoder reads at `pc` (R71 to R75), and a push as the source of a fetch (R45). -/

namespace Sys2Proof.Machine

/-- What the decoder reads at `pc` is what a running machine executes. -/
theorem step_of_decode {s : State} {i : Instr} {rest : List Byte} (hr : s.run = .running)
    (h : decode s.config.opc (fetchWindow s) = .ok (i, rest)) : step s = exec i s :=
  step_of_fetch_ok hr (by simp only [fetchInstr, h])

/-- An instruction whose encoding lies at `pc` is at its row's opcode. -/
theorem HoldsAtPc.atOpcode {i : Instr} {s : State} (h : HoldsAtPc i s) (hr : s.run = .running)
    (ho : s.config.opc.Injective) : AtOpcode i.mnemonic s := by
  obtain ⟨hpc, hread⟩ := h 0 (Nat.succ_pos _)
  exact ⟨hr, ho, hpc, hread⟩

/-- The operand bytes of an encoding at `pc` lie behind its opcode byte. -/
theorem HoldsAtPc.operandByte {i : Instr} {s : State} (h : HoldsAtPc i s) {k : Nat} (hk : k < i.operandBytes.length) :
    s.pc + (k + 1) ≤ 255 ∧ s.mem.read (s.pc + (k + 1)) = i.operandBytes[k] :=
  h (k + 1) (Nat.succ_lt_succ hk)

/-- What lies at `pc` assembles to the instruction whose encoding it is, and ends inside memory. -/
theorem HoldsAtPc.assemble_eq {i : Instr} {s : State} (h : HoldsAtPc i s) :
    s.pc + i.mnemonic.operandCount ≤ 255 ∧
      assemble i.mnemonic (s.mem.read (s.pc + 1)) (s.mem.read (s.pc + 2)) = i := by
  cases i with
  | ret | hlt => exact ⟨(h 0 (Nat.succ_pos _)).1, rfl⟩
  | prn a | push a | pop a | call a | jmp a | jeq a | jne a =>
    obtain ⟨hend, ha⟩ := h.operandByte (k := 0) Nat.one_pos
    exact ⟨hend, by rw [ha]; rfl⟩
  | ldi a b | add a b | mul a b | cmp a b =>
    obtain ⟨-, ha⟩ := h.operandByte (k := 0) Nat.two_pos
    obtain ⟨hend, hb⟩ := h.operandByte (k := 1) Nat.one_lt_two
    exact ⟨hend, by rw [ha, hb]; rfl⟩

/-- Settles O45: by the decoder's answer, and by the bytes of an encoding, which pass the checks of the fetch. -/
theorem stepRunsDecodedInstruction : Obligations.StepRunsDecodedInstruction := by
  unfold Obligations.StepRunsDecodedInstruction
  refine ⟨fun s i rest => step_of_decode, fun s i hr ho hwf h => ?encoding⟩
  case encoding =>
    obtain ⟨hend, hi⟩ := h.assemble_eq
    have hstep := (h.atOpcode hr ho).step_of_wellFormed hend (by rwa [hi])
    rwa [hi] at hstep

@[simp] theorem pc_placeAtPc (bytes : List Byte) (s : State) : (placeAtPc bytes s).pc = s.pc := rfl

/-- Three bytes placed at `pc`, with room for them, are what the fetch then reads. -/
theorem fetchWindow_placeAtPc {s : State} (hpc : s.pc ≤ 253) (b0 b1 b2 : Byte) :
    fetchWindow (placeAtPc [b0, b1, b2] s) = [b0, b1, b2] := by
  have hread (k : Nat) (hk : k < 3) : (placeAtPc [b0, b1, b2] s).mem.read (s.pc + k) = [b0, b1, b2][k] := by
    refine (Memory.read_storeBytes _ _ _ _ (by simp only [memSize]; omega)).trans ?_
    simp [hk]
  rw [fetchWindow_eq, pc_placeAtPc, if_pos hpc, hread 1 (by decide), hread 2 (by decide),
    show (placeAtPc [b0, b1, b2] s).mem.read s.pc = b0 from hread 0 (by decide)]
  rfl

/-- Settles O46: a word is three bytes, and the fetch reads them back. -/
theorem placedInstructionIsRun : Obligations.PlacedInstructionIsRun := by
  unfold Obligations.PlacedInstructionIsRun
  intro s nbits w i rest hpc h
  have hwindow : fetchWindow (s.withFetchWord nbits w) = wordBytes nbits w := fetchWindow_placeAtPc hpc _ _ _
  exact step_of_decode rfl (by rw [hwindow]; exact h)

/-- The first byte of a fetch inside memory is the one at `pc`. -/
theorem head?_fetchWindow {s : State} (hpc : s.pc ≤ 255) : (fetchWindow s).head? = some (s.mem.read s.pc) := by
  rw [fetchWindow_eq]
  split
  · rfl
  · split
    · rfl
    · rw [if_pos (by omega)]; rfl

/-- Settles O55: a push that succeeds leaves its byte at the new SP. -/
theorem pushedByteIsFetchedAsOpcode : Obligations.PushedByteIsFetchedAsOpcode := by
  unfold Obligations.PushedByteIsFetchedAsOpcode
  intro v s t h
  obtain ⟨hregion, rfl⟩ := push_ok_iff.mp h
  have hlt := (pushed v s).sp.isLt
  rw [head?_fetchWindow (show (pushed v s).sp.toNat ≤ 255 by omega)]
  change some ((pushed v s).mem.read (pushed v s).sp.toNat) = some v
  rw [toNat_sp_pushed hregion, ← toNat_pushAddress, read_pushed_same]

end Sys2Proof.Machine
end

section
/-! The step as R80's pseudocode writes it, with R83's order of checks. -/

namespace Sys2Proof.Machine

/-- The pseudocode's test of a push is that SP - 1 lies outside the stack region. -/
theorem overflow_iff (s : State) :
    (s.sp = 0 ∨ s.sp.toNat - 1 < s.config.progLen ∨ s.sp.toNat > s.config.stackTop.toNat) ↔
      ¬ s.inStackRegion (pushAddress s) := by
  have hzero : s.sp = 0 ↔ s.sp.toNat = 0 := by rw [← BitVec.toNat_inj]; rfl
  rw [inStackRegion_iff, pushAddress, hzero]
  omega

/-- The pseudocode writes SP - 1 as a byte. -/
theorem pushed_eq_of_inStackRegion {s : State} (h : s.inStackRegion (pushAddress s)) (v : Byte) :
    pushed v s = { s.setReg spReg (s.sp - 1) with mem := s.mem.write (s.sp - 1).toNat v } := by
  rw [pushed, ← toNat_sp_pushed h v, sp_pushed]

/-- The pseudocode's test of a pop for the last address. -/
theorem toNat_eq_255_iff (b : Byte) : b.toNat = 255 ↔ b = 255 := by
  rw [← BitVec.toNat_inj]; rfl

/-- The pseudocode compares the registers as words. -/
theorem Flags.compare_eq (a b : Byte) :
    Flags.compare a b = { l := decide (a < b), g := decide (b < a), e := decide (a = b) } := by
  simp only [Flags.compare, BitVec.lt_def, BitVec.toNat_inj, gt_iff_lt]

/-- Steps 4 and 5 of R80: on operand bytes that name registers, the execution of a row's instruction is the
pseudocode's. -/
theorem exec_assemble {m : Mnemonic} {b1 b2 : Byte} {ra rb : Reg} (h1 : m.format ≠ .z → b1 = ra.byte)
    (h2 : m.format = .rr → b2 = rb.byte) (s : State) :
    exec (assemble m b1 b2) s = .next (executeR80 m ra rb b2 s) := by
  cases m with
  | ldi => rw [h1 (by decide)]; exact exec_ldi ra b2 s
  | prn => rw [h1 (by decide)]; exact exec_prn ra s
  | add => rw [h1 (by decide), h2 rfl]; exact exec_add ra rb s
  | mul => rw [h1 (by decide), h2 rfl]; exact exec_mul ra rb s
  | push =>
    rw [h1 (by decide), executeR80]
    refine (exec_push ra s).trans ?_
    simp only [overflow_iff, ite_not]
    split
    · rw [pushed_eq_of_inStackRegion ‹_›]; rfl
    · rfl
  | pop =>
    rw [h1 (by decide), executeR80]
    refine (exec_pop ra s).trans ?_
    simp only [toNat_eq_255_iff]
    rfl
  | call =>
    rw [h1 (by decide), executeR80]
    refine (exec_call ra s).trans ?_
    have hpc : s.pc + 2 > 255 ↔ 253 < s.pc := by omega
    simp only [overflow_iff, ite_not, hpc]
    split
    · rfl
    · split
      · rw [pushed_eq_of_inStackRegion ‹_›]; rfl
      · rfl
  | ret =>
    rw [executeR80]
    refine (exec_ret s).trans ?_
    simp only [toNat_eq_255_iff]
    rfl
  | cmp =>
    rw [h1 (by decide), h2 rfl]
    refine (exec_cmp ra rb s).trans ?_
    rw [Flags.compare_eq]; rfl
  | jmp => rw [h1 (by decide)]; exact exec_jmp ra s
  | jeq =>
    rw [h1 (by decide), executeR80]
    refine (exec_jeq ra s).trans ?_
    cases s.flags.e <;> rfl
  | jne =>
    rw [h1 (by decide), executeR80]
    refine (exec_jne ra s).trans ?_
    cases s.flags.e <;> rfl
  | hlt => exact exec_hlt s

/-- R83, check 4: the pseudocode's two tests of register bytes are the decoder's validation. -/
theorem wellFormed_assemble_iff (m : Mnemonic) (b1 b2 : Byte) :
    (assemble m b1 b2).wellFormed = true ↔
      ¬ (m.format ≠ .z ∧ b1.toNat > 7) ∧ ¬ (m.format = .rr ∧ b2.toNat > 7) := by
  cases m <;> simp [assemble, Instr.wellFormed, Mnemonic.format, validReg]

/-- A legal register byte is that of the register it is the number of. -/
theorem byte_ofNat {b : Byte} (h : ¬ b.toNat > 7) : b = Reg.byte (Fin.ofNat 8 b.toNat) := by
  apply BitVec.eq_of_toNat_eq
  rw [Reg.toNat_byte, Fin.val_ofNat]
  omega

/-- Steps 3 to 5 of R80: past the lookup of the row, the machine and the pseudocode test the operands alike, and end in
one execution. -/
theorem step_of_lookup {s : State} {m : Mnemonic} (hr : s.run = .running) (hpc : ¬ 255 < s.pc)
    (hm : s.config.opc.lookup (s.mem.read s.pc) = some m) :
    step s = .next
      (if s.pc + m.operandCount > 255 then s.raise .addressOutOfRange
      else if m.format ≠ .z ∧ (s.mem.read (s.pc + 1)).toNat > 7 then s.raise .invalidRegister
      else if m.format = .rr ∧ (s.mem.read (s.pc + 2)).toNat > 7 then s.raise .invalidRegister
      else
        executeR80 m (Fin.ofNat 8 (s.mem.read (s.pc + 1)).toNat) (Fin.ofNat 8 (s.mem.read (s.pc + 2)).toNat)
          (s.mem.read (s.pc + 2)) s) := by
  have hfetch := fetchInstr_eq s
  simp only [if_neg hpc, hm, wellFormed_assemble_iff] at hfetch
  split
  next hend => exact step_of_fetch_error hr (by rw [hfetch, if_pos hend])
  next hend =>
    rw [if_neg hend] at hfetch
    split
    next h1 => exact step_of_fetch_error hr (by rw [hfetch, if_neg fun h => h.1 h1])
    next h1 =>
      split
      next h2 => exact step_of_fetch_error hr (by rw [hfetch, if_neg fun h => h.2 h2])
      next h2 =>
        rw [step_of_fetch_ok hr (by rw [hfetch, if_pos ⟨h1, h2⟩])]
        exact exec_assemble (fun hz => byte_ofNat fun hb => h1 ⟨hz, hb⟩) (fun hrr => byte_ofNat fun hb => h2 ⟨hrr, hb⟩) s

/-- Settles O47: both ask for the address of the opcode and its row first, and go on alike (`step_of_lookup`). -/
theorem stepRefinesR80 : Obligations.StepRefinesR80 := by
  unfold Obligations.StepRefinesR80
  intro s hr
  unfold cycleR80
  split
  next hpc => exact step_of_fetch_error hr (by rw [fetchInstr_eq, if_pos hpc])
  next hpc =>
    split
    next hm => exact step_of_unknown_opcode hr (not_lt.mp hpc) (OpcodeMap.lookup_eq_none.mp hm)
    next m hm => exact step_of_lookup hr hpc hm

end Sys2Proof.Machine
end

section
/-! Who writes the registers (R14) and the output, and that nothing reads the output (R23). -/

namespace Sys2Proof.Machine

/-- The first operand byte of a fetched instruction is the one behind its opcode byte. -/
theorem read_operand_of_fetchInstr {s : State} {i : Instr} {b : Byte} (h : fetchInstr s = .ok i)
    (hb : i.operandBytes.head? = some b) : s.mem.read (s.pc + 1) = b := by
  obtain ⟨-, -, -, hi⟩ := fetchInstr_ok h
  rw [hi] at hb
  cases hm : i.mnemonic <;> rw [hm] at hb
  case ret | hlt => cases hb
  all_goals exact Option.some.inj hb

/-- What an instruction can do to a register (R14): nothing, a write to its first operand, or SP's move by the stack. -/
theorem ExecEnd.reg {s t : State} {i : Instr} (h : ExecEnd s i t) (q : Reg) :
    t.reg q = s.reg q ∨
      ((i.mnemonic = .ldi ∨ i.mnemonic = .add ∨ i.mnemonic = .mul ∨ i.mnemonic = .pop) ∧
        i.operandBytes.head? = some q.byte) ∨
      (q = spReg ∧ (i.mnemonic = .push ∨ i.mnemonic = .pop ∨ i.mnemonic = .call ∨ i.mnemonic = .ret)) := by
  cases h with
  | prn | cmp | jmp | hlt | fault => exact .inl rfl
  | jeq | jne => left; split <;> rfl
  | ldi r | add r | mul r =>
    by_cases hq : q = r
    · subst hq; exact .inr (.inl ⟨by simp [Instr.mnemonic], rfl⟩)
    · exact .inl (sameRegsBut_setReg r _ s q (by simpa using hq))
  | push | call | ret =>
    by_cases hq : q = spReg
    · exact .inr (.inr ⟨hq, by simp [Instr.mnemonic]⟩)
    · exact .inl (sameRegsBut_setReg spReg _ s q (by simpa using hq))
  | pop r =>
    by_cases hsp : q = spReg
    · exact .inr (.inr ⟨hsp, .inr (.inl rfl)⟩)
    · by_cases hq : q = r
      · subst hq; exact .inr (.inl ⟨.inr (.inr (.inr rfl)), rfl⟩)
      · exact .inl ((sameRegsBut_setReg r _ _ q (by simpa using hq)).trans (sameRegsBut_popped s q (by simpa using hsp)))

/-- Settles O52: `ExecEnd.reg`, with the row and the operand byte read back at `pc`. -/
theorem registersChangedOnlyAsTabled : Obligations.RegistersChangedOnlyAsTabled := by
  unfold Obligations.RegistersChangedOnlyAsTabled
  intro s t h q hne
  obtain ⟨-, ⟨k, -, rfl⟩ | ⟨i, hfetch, hend⟩⟩ := step_ends h
  · exact absurd rfl hne
  · have hread {m : Mnemonic} : i.mnemonic = m → s.mem.read s.pc = s.config.opc.byte m := read_pc_of_fetchInstr hfetch
    obtain hkept | ⟨hop, hoperand⟩ | ⟨hsp, hop⟩ := hend.reg q
    · exact absurd hkept hne
    · exact .inl ⟨hop.imp hread (.imp hread (.imp hread hread)), read_operand_of_fetchInstr hfetch hoperand⟩
    · exact .inr ⟨hsp, hop.imp hread (.imp hread (.imp hread hread))⟩

/-- `s` with the output `o`. -/
def State.withOut (s : State) (o : List Byte) : State := { s with out := o }

@[simp] theorem State.out_withOut (s : State) (o : List Byte) : (s.withOut o).out = o := rfl

theorem State.withOut_ite (c : Prop) [Decidable c] (s t : State) (o : List Byte) :
    (if c then s else t).withOut o = if c then s.withOut o else t.withOut o := apply_ite (State.withOut · o) c s t

/-- Every instruction but PRN does the same whatever was output, and leaves it in place. -/
theorem exec_withOut_of_ne_prn {i : Instr} (hi : i.wellFormed = true) (hne : i.mnemonic ≠ .prn) (s : State)
    (o : List Byte) : ∃ t, exec i s = .next t ∧ exec i (s.withOut o) = .next (t.withOut o) := by
  revert hne
  apply wellFormed_cases i hi
  case ldi => exact fun r imm _ => ⟨_, exec_ldi r imm s, exec_ldi r imm (s.withOut o)⟩
  case prn => exact fun _ hne => absurd rfl hne
  case add => exact fun ra rb _ => ⟨_, exec_add ra rb s, exec_add ra rb (s.withOut o)⟩
  case mul => exact fun ra rb _ => ⟨_, exec_mul ra rb s, exec_mul ra rb (s.withOut o)⟩
  case push => exact fun r _ => ⟨_, exec_push r s, by rw [exec_push, State.withOut_ite]; rfl⟩
  case pop => exact fun r _ => ⟨_, exec_pop r s, by rw [exec_pop, State.withOut_ite, State.withOut_ite]; rfl⟩
  case call => exact fun r _ => ⟨_, exec_call r s, by rw [exec_call, State.withOut_ite, State.withOut_ite]; rfl⟩
  case ret => exact fun _ => ⟨_, exec_ret s, by rw [exec_ret, State.withOut_ite, State.withOut_ite]; rfl⟩
  case cmp => exact fun ra rb _ => ⟨_, exec_cmp ra rb s, exec_cmp ra rb (s.withOut o)⟩
  case jmp => exact fun r _ => ⟨_, exec_jmp r s, exec_jmp r (s.withOut o)⟩
  case jeq => exact fun r _ => ⟨_, exec_jeq r s, by rw [exec_jeq, State.withOut_ite]; rfl⟩
  case jne => exact fun r _ => ⟨_, exec_jne r s, by rw [exec_jne, State.withOut_ite]; rfl⟩
  case hlt => exact fun _ => ⟨_, exec_hlt s, exec_hlt (s.withOut o)⟩

/-- A well-formed instruction of PRN's row names a register. -/
theorem exists_reg_of_prn {i : Instr} (hi : i.wellFormed = true) (hm : i.mnemonic = .prn) : ∃ r : Reg, i = .prn r.byte := by
  revert hm
  apply wellFormed_cases i hi
  case prn => exact fun r _ => ⟨r, rfl⟩
  all_goals intros; contradiction

/-- What a step appends to the output: nothing, or the value of the register that the PRN at `pc` names. -/
def Emits (s : State) (w : List Byte) : Prop :=
  w = [] ∨ s.mem.read s.pc = s.config.opc.prn ∧ ∃ r : Reg, s.mem.read (s.pc + 1) = r.byte ∧ w = [s.reg r]

/-- R23: a step appends to whatever the output holds what the state, the output apart, says, and is otherwise the same. -/
theorem step_withOut {s t : State} (h : step s = .next t) :
    ∃ w, Emits s w ∧ t.out = s.out ++ w ∧ ∀ o, step (s.withOut o) = .next (t.withOut (o ++ w)) := by
  obtain ⟨hr, ⟨i, hfetch, hexec⟩ | ⟨k, hfetch, rfl⟩⟩ := step_cases s t h
  · obtain ⟨hwf, -⟩ := fetchInstr_ok hfetch
    have hstep (o : List Byte) : step (s.withOut o) = exec i (s.withOut o) := step_of_fetch_ok hr hfetch
    by_cases hm : i.mnemonic = .prn
    · obtain ⟨r, rfl⟩ := exists_reg_of_prn hwf hm
      rw [exec_prn] at hexec
      cases hexec
      exact ⟨[s.reg r], .inr ⟨read_pc_of_fetchInstr hfetch rfl, r, read_operand_of_fetchInstr hfetch rfl, rfl⟩, rfl,
        fun o => (hstep o).trans (exec_prn r _)⟩
    · have hother (o : List Byte) : exec i (s.withOut o) = .next (t.withOut o) := by
        obtain ⟨u, hu, hother⟩ := exec_withOut_of_ne_prn hwf hm s o
        cases hexec.symm.trans hu
        exact hother
      have hself : t = t.withOut s.out := Host.Outcome.next.inj (hexec.symm.trans (hother s.out))
      refine ⟨[], .inl rfl, ?_, fun o => ?_⟩
      · rw [hself, State.out_withOut, List.append_nil]
      · rw [List.append_nil, hstep, hother]
  · refine ⟨[], .inl rfl, (List.append_nil _).symm, fun o => ?_⟩
    rw [List.append_nil]
    exact step_of_fetch_error (s := s.withOut o) hr hfetch

/-- Settles O50: `step_withOut`, where what is appended is what the step added to its own output. -/
theorem outputAppendedByPrnAndNeverRead : Obligations.OutputAppendedByPrnAndNeverRead := by
  unfold Obligations.OutputAppendedByPrnAndNeverRead
  refine ⟨fun s t h => ?appended, fun s t o h => ?neverRead⟩
  case appended =>
    obtain ⟨w, rfl | ⟨hop, r, hr, rfl⟩, hout, -⟩ := step_withOut h
    · exact .inl (hout.trans (List.append_nil _))
    · exact .inr ⟨hop, r, hr, hout⟩
  case neverRead =>
    obtain ⟨w, -, hout, hother⟩ := step_withOut h
    rw [hout, List.drop_left]
    exact hother o

end Sys2Proof.Machine
end

section
/-! The stack as a whole (R114): capacity, last in first out, and a RET after its CALL (R122). -/

namespace Sys2Proof.Machine

/-- A sequence of pushes goes on from its first push, or ends with it. -/
theorem pushAll_cons (v : Byte) (vs : List Byte) (s : State) :
    pushAll (v :: vs) s = if s.inStackRegion (pushAddress s) then pushAll vs (pushed v s) else .error .stackOverflow := by
  rw [pushAll, push_eq]
  split <;> rfl

/-- Below the top of the stack, a push is refused only by the end of the program. -/
theorem inStackRegion_iff_of_le_top {s : State} (h : s.sp.toNat ≤ s.config.stackTop.toNat) :
    s.inStackRegion (pushAddress s) ↔ 0 < s.sp.toNat - s.config.progLen := by
  rw [inStackRegion_iff, pushAddress]
  omega

/-- Below the top of the stack, as many pushes succeed as there are cells between the program and SP. -/
theorem pushAll_of_le_top (vs : List Byte) {s : State} (h : s.sp.toNat ≤ s.config.stackTop.toNat) :
    (vs.length ≤ s.sp.toNat - s.config.progLen → ∃ t, pushAll vs s = .ok t) ∧
      (vs.length > s.sp.toNat - s.config.progLen → pushAll vs s = .error .stackOverflow) := by
  induction vs generalizing s with
  | nil => exact ⟨fun _ => ⟨s, rfl⟩, fun hlen => absurd hlen (Nat.not_lt_zero _)⟩
  | cons v vs ih =>
    rw [pushAll_cons, List.length_cons]
    split
    next hregion =>
      have hroom := (inStackRegion_iff_of_le_top h).mp hregion
      have hsp := toNat_sp_pushed hregion v
      obtain ⟨hfits, hover⟩ := ih (s := pushed v s) (by rw [hsp, config_pushed]; omega)
      rw [hsp, config_pushed] at hfits hover
      exact ⟨fun hlen => hfits (by omega), fun hlen => hover (by omega)⟩
    next hregion =>
      rw [inStackRegion_iff_of_le_top h] at hregion
      exact ⟨fun hlen => absurd hlen (by omega), fun _ => rfl⟩

/-- Settles O57: the empty stack has SP at `STACK_TOP`. -/
theorem stackCapacityFromEmpty : Obligations.StackCapacityFromEmpty := by
  unfold Obligations.StackCapacityFromEmpty
  intro vs s hempty
  rw [← hempty]
  exact pushAll_of_le_top vs (by rw [hempty])

/-- A pop that neither the empty stack nor the last address refuses. -/
theorem pop_of_ne {s : State} (hempty : s.sp ≠ s.config.stackTop) (hend : s.sp.toNat ≠ 255) :
    pop s = .ok (s.mem.read s.sp.toNat, popped s) := by
  rw [pop_eq, if_neg hempty, if_neg hend]

/-- R40: with SP at an entry that a push made, neither refuses. -/
theorem sp_ne_of_entry {s u : State} (hregion : s.inStackRegion (pushAddress s)) (hsp : u.sp.toNat = s.sp.toNat - 1)
    (hconfig : u.config = s.config) : u.sp ≠ u.config.stackTop ∧ u.sp.toNat ≠ 255 := by
  have hpos := sp_pos_of_inStackRegion hregion
  have hlt := s.sp.isLt
  rw [inStackRegion_iff, pushAddress] at hregion
  refine ⟨fun htop => ?_, by omega⟩
  rw [htop, hconfig] at hsp
  omega

/-- A sequence of pops that succeeds is a pop and the sequence of the others. -/
theorem popMany_succ_ok_iff {n : Nat} {s t : State} {vs : List Byte} :
    popMany (n + 1) s = .ok (vs, t) ↔ ∃ v u ws, pop s = .ok (v, u) ∧ popMany n u = .ok (ws, t) ∧ vs = v :: ws := by
  rw [popMany]
  cases hpop : pop s with
  | error k => simp [bind, Except.bind]
  | ok p =>
    obtain ⟨v, u⟩ := p
    cases hrest : popMany n u with
    | error k => simp [hrest, bind, Except.bind]
    | ok q => obtain ⟨ws, w⟩ := q; simp [hrest, bind, Except.bind, pure, Except.pure, eq_comm, and_comm]

/-- A sequence of pops goes on with one more at its end. -/
theorem popMany_succ_of_popMany {n : Nat} {s t u : State} {vs : List Byte} {v : Byte}
    (h : popMany n s = .ok (vs, t)) (hpop : pop t = .ok (v, u)) : popMany (n + 1) s = .ok (vs ++ [v], u) := by
  induction n generalizing s vs with
  | zero =>
    cases h
    exact popMany_succ_ok_iff.mpr ⟨v, u, [], hpop, rfl, rfl⟩
  | succ n ih =>
    obtain ⟨w, x, ws, hfirst, hrest, rfl⟩ := popMany_succ_ok_iff.mp h
    exact popMany_succ_ok_iff.mpr ⟨w, x, ws ++ [v], hfirst, ih hrest, rfl⟩

/-- What pushes and as many pops leave of a state: the `n` cells under SP are cleared, all else is as before. -/
structure Unwound (n : Nat) (s u : State) : Prop where
  regs : SameRegs s u
  pc : u.pc = s.pc
  flags : u.flags = s.flags
  status : SameStatus s u
  mem : ∀ a : Nat, u.mem.read a = if s.sp.toNat - n ≤ a ∧ a < s.sp.toNat then 0 else s.mem.read a

theorem Unwound.sp {n : Nat} {s u : State} (h : Unwound n s u) : u.sp = s.sp := h.regs spReg

/-- Once the pushes after the first are undone, one more pop returns the first value and undoes that push too. -/
theorem Unwound.pop_pushed {n : Nat} {v : Byte} {s u : State} (hregion : s.inStackRegion (pushAddress s))
    (h : Unwound n (pushed v s) u) : pop u = .ok (v, popped u) ∧ Unwound (n + 1) s (popped u) := by
  obtain ⟨hrun, hout, hconfig⟩ := h.status
  have hpos := sp_pos_of_inStackRegion hregion
  have hsp : u.sp.toNat = s.sp.toNat - 1 := by rw [h.sp, toNat_sp_pushed hregion]
  have hread (a : Nat) (ha : a ≠ s.sp.toNat - 1) : (pushed v s).mem.read a = s.mem.read a := by
    rw [mem_pushed, Memory.read_write, if_neg ha]
  have hvalue : u.mem.read u.sp.toNat = v := by
    rw [h.mem, hsp, toNat_sp_pushed hregion, if_neg (by omega), ← toNat_pushAddress, read_pushed_same]
  obtain ⟨hempty, hend⟩ := sp_ne_of_entry hregion hsp hconfig
  refine ⟨by rw [pop_of_ne hempty hend, hvalue], ?_⟩
  constructor
  case regs =>
    intro q
    by_cases hq : q = spReg
    · subst hq
      rw [reg_popped, if_pos rfl, h.sp, sp_pushed, BitVec.sub_add_cancel]
      rfl
    · rw [reg_popped, if_neg hq, h.regs q, reg_pushed, if_neg hq]
  case pc => exact h.pc
  case flags => exact h.flags
  case status => exact ⟨hrun, hout, hconfig⟩
  case mem =>
    intro a
    rw [mem_popped, Memory.read_write, h.mem, hsp, toNat_sp_pushed hregion]
    by_cases ha : a = s.sp.toNat - 1
    · rw [if_pos ha, if_pos (by omega)]
    · rw [if_neg ha, hread a ha]
      exact if_congr (by omega) rfl rfl

/-- Settles O56, by induction on the values: what the later pushes left is undone first, then the first push. -/
theorem pushesThenPopsAreLifo : Obligations.PushesThenPopsAreLifo := by
  unfold Obligations.PushesThenPopsAreLifo
  intro vs s t h
  have hunwound : ∃ u, popMany vs.length t = .ok (vs.reverse, u) ∧ Unwound vs.length s u := by
    induction vs generalizing s with
    | nil =>
      cases h
      refine ⟨t, rfl, fun _ => rfl, rfl, rfl, ⟨rfl, rfl, rfl⟩, fun a => ?_⟩
      rw [if_neg (by rw [List.length_nil]; omega)]
    | cons v vs ih =>
      rw [pushAll_cons] at h
      split at h
      next hregion =>
        obtain ⟨u, hpops, hu⟩ := ih _ h
        obtain ⟨hpop, hresult⟩ := hu.pop_pushed hregion
        rw [List.reverse_cons]
        exact ⟨popped u, popMany_succ_of_popMany hpops hpop, hresult⟩
      next => cases h
  obtain ⟨u, hpops, hu⟩ := hunwound
  exact ⟨u, hpops, hu.sp, hu.regs, hu.pc, hu.flags, hu.status, hu.mem⟩

/-- All that a CALL which goes on says. -/
theorem exec_call_running {r : Reg} {s t : State} (h : exec (.call r.byte) s = .next t) (ht : t.run = .running) :
    s.pc ≤ 253 ∧ s.inStackRegion (pushAddress s) ∧ t = (pushed (BitVec.ofNat 8 (s.pc + 2)) s).jump (s.reg r) := by
  rw [exec_call] at h
  split_ifs at h with hpc hregion
  · cases h; cases ht
  · cases h; exact ⟨not_lt.mp hpc, hregion, rfl⟩
  · cases h; cases ht

/-- Settles O58: the entry is in the stack region, so SP is neither `STACK_TOP` nor 255, and RET pops it. -/
theorem callThenRetResumes : Obligations.CallThenRetResumes := by
  unfold Obligations.CallThenRetResumes
  intro r s t u _ hcall ht hsp hentry hconfig
  obtain ⟨hpc, hregion, rfl⟩ := exec_call_running hcall ht
  rw [State.sp_jump] at hsp hentry
  have hspNat : u.sp.toNat = s.sp.toNat - 1 := by rw [hsp, toNat_sp_pushed hregion]
  have hpos := sp_pos_of_inStackRegion hregion
  obtain ⟨hempty, hend⟩ := sp_ne_of_entry hregion hspNat hconfig
  obtain ⟨w, hret, hwpc, hwsp, hclear, -⟩ := retCompletes u hempty hend
  refine ⟨w, hret, ?pc, BitVec.eq_of_toNat_eq (by omega), by rw [State.sp_jump, ← hsp]; exact hclear⟩
  case pc =>
    rw [hwpc, hsp, hentry, State.mem_jump, toNat_sp_pushed hregion, ← toNat_pushAddress, read_pushed_same,
      BitVec.toNat_ofNat]
    omega

end Sys2Proof.Machine
end

section
/-! Runs that come back to a state they were in, `out` apart (R187). -/

namespace Sys2Proof.Machine

/-- A run of `m + n` cycles is one of `m` and then one of `n`. -/
theorem runFor_add {m n : Nat} {s t : State} :
    runFor (m + n) s = .next t ↔ ∃ u, runFor m s = .next u ∧ runFor n u = .next t := by
  induction m generalizing s with
  | zero => simp [runFor_zero]
  | succ m ih =>
    rw [Nat.add_right_comm, runFor_succ]
    simp only [runFor_succ, ih]
    exact ⟨fun ⟨v, hstep, u, hm, hn⟩ => ⟨u, ⟨v, hstep, hm⟩, hn⟩, fun ⟨u, ⟨v, hstep, hm⟩, hn⟩ => ⟨v, hstep, u, hm, hn⟩⟩

theorem sameButOut_iff {s t : State} : SameButOut s t ↔ ∃ o, t = s.withOut o := by
  constructor
  · exact fun h => ⟨t.out, h⟩
  · rintro ⟨o, rfl⟩; rfl

/-- R23 over a run: whatever was output before, the run goes through the same states, the output apart. -/
theorem runFor_withOut {n : Nat} {s t : State} (h : runFor n s = .next t) (o : List Byte) :
    ∃ o', runFor n (s.withOut o) = .next (t.withOut o') := by
  induction n generalizing s o with
  | zero => cases h; exact ⟨o, rfl⟩
  | succ n ih =>
    obtain ⟨u, hstep, hrun⟩ := runFor_succ.mp h
    obtain ⟨w, -, -, hother⟩ := step_withOut hstep
    obtain ⟨o', hrest⟩ := ih hrun (o ++ w)
    exact ⟨o', runFor_succ.mpr ⟨_, hother o, hrest⟩⟩

/-- A run that comes back to where it was, the output apart, comes back every time. -/
theorem runFor_mul_of_return {n : Nat} {s t : State} (h : runFor n s = .next t) (hback : SameButOut s t) (k : Nat) :
    ∃ u, runFor (k * n) s = .next u ∧ SameButOut s u := by
  induction k with
  | zero => exact ⟨s, by rw [Nat.zero_mul]; rfl, rfl⟩
  | succ k ih =>
    obtain ⟨u, hrun, hu⟩ := ih
    obtain ⟨o, rfl⟩ := sameButOut_iff.mp hu
    obtain ⟨o', rfl⟩ := sameButOut_iff.mp hback
    obtain ⟨o'', hnext⟩ := runFor_withOut h o
    exact ⟨s.withOut o'', by rw [Nat.succ_mul]; exact runFor_add.mpr ⟨_, hrun, hnext⟩, rfl⟩

/-- Settles O59: `runFor_mul_of_return`; and if `n` is positive, `k` cycles are the beginning of `k * n`. -/
theorem repeatedStateRepeatsForever : Obligations.RepeatedStateRepeatsForever := by
  unfold Obligations.RepeatedStateRepeatsForever
  refine fun n s t h hback => ⟨runFor_mul_of_return h hback, fun hn k => ?_⟩
  obtain ⟨u, hrun, -⟩ := runFor_mul_of_return h hback k
  rw [← Nat.add_sub_of_le (Nat.le_mul_of_pos_right k hn), runFor_add] at hrun
  obtain ⟨v, hv, -⟩ := hrun
  exact ⟨v, hv⟩

end Sys2Proof.Machine
end

section
/-! What the world outside is told of a run (R151, R169) and of the flags (R20). -/

namespace Sys2Proof.Machine

/-- R151: a fault has a code from 1 to 6. -/
theorem FaultKind.code_bounds (k : FaultKind) : 1 ≤ k.code ∧ k.code ≤ 6 := by
  cases k <;> decide

/-- The fault kind of a code from 1 to 6. -/
def FaultKind.ofCode : Nat → FaultKind
  | 1 => .addressOutOfRange
  | 2 => .invalidRegister
  | 3 => .unsupportedALUOperation
  | 4 => .unknownOpcode
  | 5 => .stackOverflow
  | _ => .stackUnderflow

/-- R151: a code names its fault kind. -/
theorem FaultKind.ofCode_code (k : FaultKind) : FaultKind.ofCode k.code = k := by
  cases k <;> rfl

theorem FaultKind.code_injective : Function.Injective FaultKind.code :=
  Function.LeftInverse.injective FaultKind.ofCode_code

theorem RunState.faultCode_le (run : RunState) : run.faultCode ≤ 6 := by
  cases run with
  | running | halted => exact Nat.zero_le _
  | faulted k => exact k.code_bounds.2

/-- R151: the code 0 is no fault. -/
theorem RunState.faultCode_eq_zero_iff (run : RunState) : run.faultCode = 0 ↔ run = .running ∨ run = .halted := by
  cases run with
  | running => simp [RunState.faultCode]
  | halted => simp [RunState.faultCode]
  | faulted k => simp [RunState.faultCode, Nat.one_le_iff_ne_zero.mp k.code_bounds.1]

/-- R169: the exit status is zero exactly for `Halted`. -/
theorem RunState.exitStatus_eq_zero_iff (run : RunState) : run.exitStatus = some .zero ↔ run = .halted := by
  cases run <;> simp [RunState.exitStatus]

/-- R169: each fault has its own non-zero exit status. -/
theorem RunState.exitStatus_eq_nonZero_iff (run : RunState) (k : FaultKind) :
    run.exitStatus = some (.nonZero k) ↔ run = .faulted k := by
  cases run <;> simp [RunState.exitStatus]

/-- R20: the three flags have a bit each, so the byte does not wrap. -/
theorem Flags.toNat_toByte (f : Flags) : f.toByte.toNat = 4 * f.l.toNat + 2 * f.g.toNat + f.e.toNat := by
  have hl := f.l.toNat_le
  have hg := f.g.toNat_le
  have he := f.e.toNat_le
  rw [Flags.toByte, BitVec.toNat_ofNat]
  omega

/-- Settles O60, clause by clause. -/
theorem outsideViewOfStatus : Obligations.OutsideViewOfStatus := by
  unfold Obligations.OutsideViewOfStatus
  exact ⟨⟨rfl, rfl, rfl, rfl, rfl, rfl⟩, fun run => ⟨run.faultCode_le, run.faultCode_eq_zero_iff⟩,
    fun _ _ h => FaultKind.code_injective h, RunState.exitStatus_eq_zero_iff, RunState.exitStatus_eq_nonZero_iff,
    Flags.toNat_toByte⟩

end Sys2Proof.Machine
end

section
/-! The Loader's text format (R60, R158). -/

namespace Sys2Proof.Machine

/-! ### Tokens -/

/-- Without the white space behind it, a token that holds none is left. -/
theorem trimLine_append {token blanks : List Char} (ht : ∀ c ∈ token, c.isWhitespace = false)
    (hb : ∀ c ∈ blanks, c.isWhitespace = true) : trimLine (token ++ blanks) = token := by
  have hkeep {l : List Char} (hl : ∀ c ∈ l, c.isWhitespace = false) : l.dropWhile Char.isWhitespace = l := by
    cases l with
    | nil => rfl
    | cons c cs => rw [List.dropWhile_cons, if_neg (ne_true_of_eq_false (hl c List.mem_cons_self))]
  have hfront : (token ++ blanks).dropWhile Char.isWhitespace = token ++ (if token = [] then [] else blanks) := by
    cases token with
    | nil => simpa using hb
    | cons c cs =>
      rw [List.cons_append, List.dropWhile_cons, if_neg (ne_true_of_eq_false (ht c List.mem_cons_self)), if_neg nofun]
      rfl
  have hback : ∀ c ∈ (if token = [] then [] else blanks).reverse, c.isWhitespace = true := by
    split
    · exact nofun
    · simpa using hb
  rw [trimLine, hfront, List.reverse_append, List.dropWhile_append_of_pos hback, hkeep (by simpa using ht),
    List.reverse_reverse]

theorem trimLine_of_blank {blanks : List Char} (hb : ∀ c ∈ blanks, c.isWhitespace = true) : trimLine blanks = [] :=
  trimLine_append (token := []) nofun hb

theorem trimLine_of_token {token : List Char} (ht : ∀ c ∈ token, c.isWhitespace = false) : trimLine token = token := by
  simpa using trimLine_append (blanks := []) ht nofun

/-- What a token is worth, read from the most significant digit on. -/
def digitsValue (token : List Char) : Nat := token.foldl (fun n c => 2 * n + if c = '1' then 1 else 0) 0

/-- The digit of a bit (R60). -/
def bitDigit (b : Bool) : Char := if b then '1' else '0'

theorem digitsValue_append_bitDigit (token : List Char) (b : Bool) :
    digitsValue (token ++ [bitDigit b]) = 2 * digitsValue token + b.toNat := by
  cases b <;> simp [digitsValue, bitDigit]

/-- The first `j` of the eight digits of a byte are worth what is left of it without its low bits. -/
theorem digitsValue_range (b : Byte) {j : Nat} (hj : j ≤ 8) :
    digitsValue ((List.range j).map fun k => bitDigit (b.getLsbD (7 - k))) = b.toNat / 2 ^ (8 - j) := by
  induction j with
  | zero =>
    have := b.isLt
    exact (Nat.div_eq_of_lt this).symm
  | succ j ih =>
    obtain ⟨k, hk⟩ : ∃ k, 7 - j = k := ⟨_, rfl⟩
    have hbit : (b.getLsbD k).toNat = b.toNat / 2 ^ k % 2 := by
      rw [BitVec.getLsbD, Nat.toNat_testBit]
    rw [List.range_succ, List.map_append, List.map_singleton, digitsValue_append_bitDigit, ih (by omega), hk, hbit,
      show 8 - j = k + 1 by omega, show 8 - (j + 1) = k by omega, Nat.pow_succ, ← Nat.div_div_eq_div_mul]
    omega

theorem mem_byteToken {b : Byte} {c : Char} (h : c ∈ byteToken b) : c = '0' ∨ c = '1' := by
  obtain ⟨k, -, rfl⟩ := List.mem_map.mp h
  split
  · exact .inr rfl
  · exact .inl rfl

theorem byteToken_ne_nil (b : Byte) : byteToken b ≠ [] := by
  simp [byteToken]

/-- R60: the token of a byte stands for that byte. -/
theorem tokenByte_byteToken (b : Byte) : tokenByte (byteToken b) = some b := by
  have hvalue : digitsValue (byteToken b) = b.toNat :=
    (digitsValue_range b le_rfl).trans (Nat.div_one _)
  have hdigits : (byteToken b).all (fun c => c = '0' || c = '1') = true := by
    rw [List.all_eq_true]
    exact fun c hc => by simpa using mem_byteToken hc
  rw [tokenByte, if_pos ⟨rfl, hdigits⟩]
  change some (BitVec.ofNat 8 (digitsValue (byteToken b))) = some b
  rw [hvalue, BitVec.ofNat_toNat, BitVec.setWidth_eq]

/-! ### Lines -/

/-- R60: a line without a token is skipped. -/
theorem parseProgram_of_blank {line rest : List Char} (hline : '\n' ∉ line) (h : lineToken line = []) :
    parseProgram (line ++ '\n' :: rest) = parseProgram rest := by
  rw [parseProgram_line line rest hline, linesBytes, if_pos h, parseProgram]

/-- R60: a line with the token of a byte gives that byte. -/
theorem parseProgram_of_byte {line rest : List Char} {b : Byte} {bytes : List Byte} (hline : '\n' ∉ line)
    (h : lineToken line = byteToken b) (hrest : parseProgram rest = .ok bytes) :
    parseProgram (line ++ '\n' :: rest) = .ok (b :: bytes) := by
  rw [parseProgram] at hrest
  rw [parseProgram_line line rest hline, linesBytes, h, if_neg (byteToken_ne_nil b)]
  simp only [tokenByte_byteToken, hrest]
  rfl

/-- R158: a line with a token that stands for no byte is malformed. -/
theorem parseProgram_of_malformed {line rest : List Char} (hline : '\n' ∉ line) (hne : lineToken line ≠ [])
    (h : tokenByte (lineToken line) = none) :
    parseProgram (line ++ '\n' :: rest) = .error .malformedInstructionLine := by
  rw [parseProgram_line line rest hline, linesBytes, if_neg hne]
  simp only [h]

/-- The line of a byte, with its comment, has that byte's token. -/
theorem lineToken_byteToken (b : Byte) (comment : List Char) :
    lineToken (byteToken b ++ ' ' :: '#' :: comment) = byteToken b := by
  have hhash : '#' ∉ byteToken b ++ [' '] := by
    intro h
    obtain h | h := List.mem_append.mp h
    · exact absurd (mem_byteToken h) (by decide)
    · simp at h
  have hline := lineToken_comment (byteToken b ++ [' ']) comment hhash
  rw [List.append_assoc] at hline
  refine hline.trans (trimLine_append (fun c hc => ?_) fun c hc => ?_)
  · obtain rfl | rfl := mem_byteToken hc <;> rfl
  · rw [List.mem_singleton.mp hc]; rfl

theorem newline_notMem_byteLine (b : Byte) {comment : List Char} (h : '\n' ∉ comment) :
    '\n' ∉ byteToken b ++ ' ' :: '#' :: comment := by
  intro hmem
  obtain hmem | hmem := List.mem_append.mp hmem
  · exact absurd (mem_byteToken hmem) (by decide)
  · simp [h] at hmem

/-- R60: a text of one byte a line, each with a comment, gives those bytes. -/
theorem parseProgram_programText (ls : List (Byte × List Char)) (h : ∀ l ∈ ls, '\n' ∉ l.2) :
    parseProgram (programText ls) = .ok (ls.map (·.1)) := by
  induction ls with
  | nil => rfl
  | cons l ls ih =>
    obtain ⟨b, comment⟩ := l
    obtain ⟨hcomment, hrest⟩ := List.forall_mem_cons.mp h
    exact parseProgram_of_byte (newline_notMem_byteLine b hcomment) (lineToken_byteToken b comment) (ih hrest)

/-- R60: a line of blanks, with a comment or without, has no token. -/
theorem lineToken_of_blank {blanks : List Char} (h : ∀ c ∈ blanks, c = ' ' ∨ c = '\t') (comment : List Char) :
    lineToken blanks = [] ∧ lineToken (blanks ++ '#' :: comment) = [] := by
  have hwhite : ∀ c ∈ blanks, c.isWhitespace = true := fun c hc => by obtain rfl | rfl := h c hc <;> rfl
  have hhash : '#' ∉ blanks := fun hc => absurd (h _ hc) (by decide)
  rw [lineToken_without_comment _ hhash, lineToken_comment _ _ hhash]
  exact ⟨trimLine_of_blank hwhite, trimLine_of_blank hwhite⟩

/-- R60: a token other than 8 binary digits stands for no byte. -/
theorem tokenByte_of_malformed {token : List Char} (h : ¬ (token.length = 8 ∧ ∀ c ∈ token, c = '0' ∨ c = '1')) :
    tokenByte token = none := by
  rw [tokenByte, if_neg]
  simpa using h

/-- Settles O7, by what the Loader does with a line of each kind. -/
theorem loaderReadsTextFormat : Obligations.LoaderReadsTextFormat := by
  unfold Obligations.LoaderReadsTextFormat
  refine ⟨parseProgram_programText, fun blanks comment rest hblanks hcomment => ?skipped,
    fun token rest hne htoken hmalformed => ?malformed, fun top o text bytes s hparse hboot => ?launch⟩
  case skipped =>
    obtain ⟨hblank, hwithComment⟩ := lineToken_of_blank hblanks comment
    have hline : '\n' ∉ blanks := fun hc => absurd (hblanks _ hc) (by decide)
    refine ⟨parseProgram_of_blank ?_ hwithComment, parseProgram_of_blank hline hblank⟩
    rw [List.mem_append, List.mem_cons]
    exact fun hc => hc.elim hline fun hc => hc.elim (by decide) hcomment
  case malformed =>
    have hhash : '#' ∉ token := fun hc => (htoken _ hc).1 rfl
    have hline : '\n' ∉ token := fun hc => absurd (htoken _ hc).2 (by decide)
    have htrim : lineToken token = token := by
      rw [lineToken_without_comment _ hhash, trimLine_of_token fun c hc => (htoken c hc).2]
    exact parseProgram_of_malformed hline (by rwa [htrim]) (by rw [htrim]; exact tokenByte_of_malformed hmalformed)
  case launch => simp only [launch, hparse, hboot]

end Sys2Proof.Machine
end
